-- ==== Sys2Proof/Word.lean ====
section
/-! DEFINITION. The widths of spec/00_scope.md rule R7 as word types. -/

namespace Sys2Proof

/-- A cell's data: 8 bits, unsigned (R7). -/
abbrev Byte := BitVec 8

/-- An instruction word: four hex digits, 16 bits, from two cells (R7, R47). -/
abbrev Word := BitVec 16

/-- One hex digit of an instruction word: a register index 0 to 15 (R7, R51). -/
abbrev Digit := BitVec 4

/-- The instruction counter: 9 bits unsigned (R7, R18, D2). -/
abbrev Counter := BitVec 9

end Sys2Proof
end

