-- ==== Sys2Proof/Config.lean ====
section
/-! DEFINITION. The implementation parameters of spec/00_scope.md rule R6, and the one open function of the spec. -/

namespace Sys2Proof

/-- `RUN_CONTINUE`: the guard the run driver tests between cycles (R6, R74, D5). -/
inductive RunContinue where
  /-- `FETCHABLE` (default): `pc + 1 < N`. -/
  | fetchable
  /-- `THREE_AHEAD`: `pc + 3 < N`. -/
  | threeAhead
  deriving DecidableEq, Repr

/-- `ADD_OVERFLOW`: what opcodes 5 and 6 do with a raw sum whose magnitude exceeds 127 (R6, R83, D8). -/
inductive AddOverflow where
  /-- `NEGATE` (default, the spec's value). -/
  | negate
  /-- "a named alternative" (R6): the spec names none, so an alternative is known by a number only. -/
  | named (k : Nat)
  deriving DecidableEq, Repr

/-- The corrected sum that the named alternative `k` gives for the raw sum `r`. The spec does not say it (R6, R83, ID1):
a free value, DESIGN CHOICE (log entry 4), safe. It has no body, so no proof can lean on what it is. -/
opaque Config.addOverflowNamed : Nat → Int → Int

/-- The construction parameters of one machine (R6). They never change after construction (R12). -/
structure Params where
  /-- `MEM_SIZE` (N): the number of memory cells, 1 to 256. -/
  memSize : Nat
  /-- `REG_COUNT` (M): the number of register cells, 1 to 16. -/
  regCount : Nat
  /-- `PC_INIT`: the instruction counter at construction, 0 to N-1. -/
  pcInit : Nat
  /-- `RUN_CONTINUE`. -/
  runContinue : RunContinue
  /-- `RUN_BUDGET`: the cap on the cycles of one run request, or none (unbounded). -/
  runBudget : Option Nat
  /-- `ADD_OVERFLOW`. -/
  addOverflow : AddOverflow
  deriving DecidableEq, Repr

/-- The bounds construction checks (R111); outside them no machine exists. -/
def Params.legal (p : Params) : Bool :=
  decide (1 ≤ p.memSize ∧ p.memSize ≤ 256 ∧ 1 ≤ p.regCount ∧ p.regCount ≤ 16 ∧ p.pcInit < p.memSize)

/-- The parameters State.reset is built with: the full banks and the defaults of R6, as spec/95_test_vectors.md takes them where a
vector does not say otherwise. DESIGN CHOICE (log entry 1), unsafe: the spec fixes no N, M or PC_INIT. -/
def Params.standard : Params where
  memSize := 256
  regCount := 16
  pcInit := 0
  runContinue := .fetchable
  runBudget := none
  addOverflow := .negate

end Sys2Proof
end

