-- ==== Sys2Proof/Machine/Alu.lean ====
section
/-! DEFINITION. The functions of the 8-bit ALU (spec/42_alu.md rules R81 to R86). -/

namespace Sys2Proof.Machine

/-- `signed8(v)` (R81): the byte as a two's-complement integer, for the add only. -/
def signed8 (v : Byte) : Int := if v.toNat ≤ 127 then (v.toNat : Int) else (v.toNat : Int) - 256

/-- The raw sum `r` of the add (R82): an exact integer, -256 to 254. -/
def rawSum (s t : Byte) : Int := signed8 s + signed8 t

/-- `ADD_OVERFLOW(r)` (R83): `NEGATE` is `-r`; a named alternative's function is free (log entry 4). -/
def addOverflow (mode : AddOverflow) (r : Int) : Int :=
  match mode with
  | .negate => -r
  | .named k => Config.addOverflowNamed k r

/-- The corrected sum `c` (R82): through `ADD_OVERFLOW` when the raw sum's magnitude exceeds 127, so -128 takes that branch. -/
def correctedSum (mode : AddOverflow) (r : Int) : Int := if 127 < r.natAbs then addOverflow mode r else r

/-- `add8(s, t)` (R82): the corrected sum mod 256. -/
def add8 (mode : AddOverflow) (s t : Byte) : Byte := BitVec.ofInt 8 (correctedSum mode (rawSum s t))

/-- `or8` (R84). -/
def or8 (s t : Byte) : Byte := s ||| t

/-- `and8` (R84). -/
def and8 (s t : Byte) : Byte := s &&& t

/-- `xor8` (R84). -/
def xor8 (s t : Byte) : Byte := s ^^^ t

/-- `rotr8(v, k)` for `k` in 0 to 7 (R85): a shift on 8 bits drops what the mask `0xFF` drops. -/
def rotr8 (v : Byte) (k : Nat) : Byte := (v >>> k) ||| (v <<< (8 - k))

/-- The rotate count of opcode a (R92): the contents of register X mod 8. -/
def rotateCount (x : Byte) : Nat := x.toNat % 8

end Sys2Proof.Machine
end

