-- ==== Sys2Proof/Syntax.lean ====
section
/-! DEFINITION. The instructions: one constructor per row of spec/opcode_table.json, each carrying the fields its operation uses
(spec/30_encoding.md rules R49, R53). Ignored digits (R55) are no fields. -/

namespace Sys2Proof

/-- The decoded operation (R53). The letters are the spec's: R, S, T, X are register indices, XY a byte of the word. -/
inductive Instr where
  /-- `1RXY`: load register R from memory cell `addr` (R77). -/
  | ld (r : Digit) (addr : Byte)
  /-- `2RXY`: load register R with the immediate (R78). -/
  | ldi (r : Digit) (imm : Byte)
  /-- `3RXY`: store register R to memory cell `addr` (R79). -/
  | st (r : Digit) (addr : Byte)
  /-- `4*RS`: copy register R (digit 2, the source) to register S (digit 3, the destination) (R80). -/
  | mov (r s : Digit)
  /-- `5RST`: signed add into R (R87). -/
  | add (r s t : Digit)
  /-- `6RST`: the alias of opcode 5 (R88), kept apart because the opcode table gives it a row (log entry 7). -/
  | add6 (r s t : Digit)
  /-- `7RST`: bitwise OR into R (R89). -/
  | or (r s t : Digit)
  /-- `8RST`: bitwise AND into R (R90). -/
  | and (r s t : Digit)
  /-- `9RST`: bitwise exclusive OR into R (R91). -/
  | xor (r s t : Digit)
  /-- `AR*X`: rotate register R right by the contents of register X mod 8 (R92). -/
  | ror (r x : Digit)
  /-- `BRXY`: jump to `target` if register R equals register 0 (R93). -/
  | jeq (r : Digit) (target : Byte)
  /-- `C***`: halt (R94). -/
  | halt
  /-- `0***`: unknown opcode (R98); `rest` is the word's other digits, which the report carries. -/
  | unknown0 (rest : BitVec 12)
  /-- `D***`: unknown opcode (R98). -/
  | unknownD (rest : BitVec 12)
  /-- `E***`: unknown opcode (R98). -/
  | unknownE (rest : BitVec 12)
  /-- `F***`: unknown opcode (R98). -/
  | unknownF (rest : BitVec 12)
  deriving DecidableEq, Repr

end Sys2Proof
end

