-- ==== Sys2Proof/Decode.lean ====
section
/-! DEFINITION. The decoder and the encoder of spec/30_encoding.md (rules R47 to R57). -/

namespace Sys2Proof

/-- The `op` field, `W[15:12]` (R48). -/
def opField (w : Word) : Digit := w.extractLsb' 12 4

/-- The `d1` field, `W[11:8]` (R48). -/
def d1Field (w : Word) : Digit := w.extractLsb' 8 4

/-- The `d2` field, `W[7:4]` (R48). -/
def d2Field (w : Word) : Digit := w.extractLsb' 4 4

/-- The `d3` field, `W[3:0]` (R48). -/
def d3Field (w : Word) : Digit := w.extractLsb' 0 4

/-- The `XY` field, `W[7:0] = {d2, d3}` (R48). -/
def xyField (w : Word) : Byte := w.extractLsb' 0 8

/-- The digits after `op`, which the report of an unknown opcode carries (R98). -/
def restField (w : Word) : BitVec 12 := w.extractLsb' 0 12

/-- `decode(W)` (R53): total on every word, decided by `op` alone (R52). The last arm is `op = 0xF`, the one value left of four bits. -/
def decode (w : Word) : Instr :=
  match (opField w).toNat with
  | 0x0 => .unknown0 (restField w)
  | 0x1 => .ld (d1Field w) (xyField w)
  | 0x2 => .ldi (d1Field w) (xyField w)
  | 0x3 => .st (d1Field w) (xyField w)
  | 0x4 => .mov (d2Field w) (d3Field w)
  | 0x5 => .add (d1Field w) (d2Field w) (d3Field w)
  | 0x6 => .add6 (d1Field w) (d2Field w) (d3Field w)
  | 0x7 => .or (d1Field w) (d2Field w) (d3Field w)
  | 0x8 => .and (d1Field w) (d2Field w) (d3Field w)
  | 0x9 => .xor (d1Field w) (d2Field w) (d3Field w)
  | 0xA => .ror (d1Field w) (d3Field w)
  | 0xB => .jeq (d1Field w) (xyField w)
  | 0xC => .halt
  | 0xD => .unknownD (restField w)
  | 0xE => .unknownE (restField w)
  | _ => .unknownF (restField w)

/-- Why bytes are no instruction: there is one length, two cells (R57), so only a missing byte can be wrong. -/
inductive DecodeError where
  /-- Fewer than two bytes. Safe: the fetch always supplies two (R63, R64). -/
  | truncated
  deriving DecidableEq, Repr

/-- The instruction word of two cells, the one at the lower address first and high (R31, R47). -/
def wordOfBytes (hi lo : Byte) : Word := hi ++ lo

/-- Decoding a list of cell values, lowest address first: the instruction and the values after it. -/
def decodeBytes : List Byte → Except DecodeError (Instr × List Byte)
  | hi :: lo :: rest => .ok (decode (wordOfBytes hi lo), rest)
  | [_] => .error .truncated
  | [] => .error .truncated

/-- The canonical word of an instruction (R55, R58): 0 in every ignored digit. -/
def encode : Instr → Word
  | .ld r addr => 0x1#4 ++ r ++ addr
  | .ldi r imm => 0x2#4 ++ r ++ imm
  | .st r addr => 0x3#4 ++ r ++ addr
  | .mov r s => 0x4#4 ++ 0x0#4 ++ r ++ s
  | .add r s t => 0x5#4 ++ r ++ s ++ t
  | .add6 r s t => 0x6#4 ++ r ++ s ++ t
  | .or r s t => 0x7#4 ++ r ++ s ++ t
  | .and r s t => 0x8#4 ++ r ++ s ++ t
  | .xor r s t => 0x9#4 ++ r ++ s ++ t
  | .ror r x => 0xA#4 ++ r ++ 0x0#4 ++ x
  | .jeq r target => 0xB#4 ++ r ++ target
  | .halt => 0xC#4 ++ 0x000#12
  | .unknown0 rest => 0x0#4 ++ rest
  | .unknownD rest => 0xD#4 ++ rest
  | .unknownE rest => 0xE#4 ++ rest
  | .unknownF rest => 0xF#4 ++ rest

/-- The high byte of a word, which stands in the cell at the lower address (R31). -/
def highByte (w : Word) : Byte := w.extractLsb' 8 8

/-- The low byte of a word (R31). -/
def lowByte (w : Word) : Byte := w.extractLsb' 0 8

/-- The two cells of an instruction, lowest address first. -/
def encodeBytes (i : Instr) : List Byte := [highByte (encode i), lowByte (encode i)]

/-- The word whose bits, numbered as spec/opcode_table.json numbers them (bit 0 the least significant, R8), are the low `nbits` of
`w`, every bit above them 0. -/
def tableWord (nbits w : Nat) : Word := BitVec.ofNat 16 (w % 2 ^ nbits)

/-- What the decoder reads from an instruction of the opcode table's numbering, laid out as the hardware stores it. -/
def decodeTableWord (nbits w : Nat) : Option Instr :=
  match decodeBytes [highByte (tableWord nbits w), lowByte (tableWord nbits w)] with
  | .ok (i, _) => some i
  | .error _ => none

end Sys2Proof
end

