-- ==== Sys2Proof/Machine/State.lean ====
section
/-! DEFINITION. The state of the engine block (spec/10_state.md), the outcomes it reports (spec/60_exceptions.md), and reset. -/

namespace Sys2Proof.Machine

/-- A storage bank (R27): the cells that are set, as (index, value) pairs with indices strictly rising. An index not listed is an
UNSET cell, which reads as 0 (R13, R14, R29). A set cell that holds 0 is listed: the spec keeps it apart from an unset one (R14, R45).
Memory and the register file are each one bank, "built from the same kind of storage array" (R27). -/
abbrev Bank := List Host.Cell

/-- The two address spaces (R27). -/
inductive Space where
  | memory
  | register
  deriving DecidableEq, Repr

/-- The operand letters of an instruction word (R49, R53). -/
inductive Letter where
  | R
  | S
  | T
  | X
  | XY
  deriving DecidableEq, Repr

/-- An operand the cycle validates, and what an AddressError reports of it: `(space, operand letter, value)` (R68, R97). -/
structure Operand where
  space : Space
  letter : Letter
  value : Byte
  deriving DecidableEq, Repr

/-- The outcome of one cycle request (R96, R102). -/
inductive CycleOutcome where
  /-- The cycle executed a known opcode with valid operands. -/
  | ok
  /-- The first operand that failed validation (R97). -/
  | addressError (operand : Operand)
  /-- The opcode digit and the word (R98). -/
  | unknownOpcode (op : Digit) (word : Word)
  /-- `pc + 1 ≥ N`: the cycle did not execute (R99). -/
  | endOfProgram
  /-- `halted = 1`: the cycle did not execute (R100). -/
  | notRunHalted
  deriving DecidableEq, Repr

/-- Why a step stops with a fault. -/
inductive Fault where
  /-- Raised by `step` alone, on a State whose parameters construction rejects (R111: "no machine exists"). Safe: it is no state of
  any machine, and the engine's own errors are all next states (R103, R104). -/
  | noSuchMachine
  deriving DecidableEq, Repr

/-- Why an instruction is refused. -/
inductive Refusal where
  /-- Raised by an arm of `exec` whose instruction has no meaning yet; no arm does. Safe. -/
  | notModelled (mnemonic : String)
  deriving DecidableEq, Repr

/-- The state of the block (R12, R25), with the parameters it was built with and the outcome of its last cycle request. -/
structure State where
  /-- The construction parameters (R6), never changed (R12). -/
  params : Params
  /-- `MEM[0..N-1]` (R12). -/
  mem : Bank
  /-- `REG[0..M-1]` (R12, R15). -/
  regs : Bank
  /-- The instruction counter (R18, R19). -/
  pc : Counter
  /-- The `halted` flag (R21). -/
  halted : Bool
  /-- `IR`, the hidden instruction register (R25). -/
  ir : Word
  /-- What the last cycle request returned to its caller (R72), none before the first. The model's own field (log entry 2). -/
  report : Option CycleOutcome
  deriving DecidableEq, Repr

/-- The state right after construction with `p` (R26, R111): every cell unset, `pc = PC_INIT`, `halted = 0`. The `ir` it holds is not
observable (R25): DESIGN CHOICE 0 (log entry 6). -/
def State.initial (p : Params) : State where
  params := p
  mem := []
  regs := []
  pc := BitVec.ofNat 9 p.pcInit
  halted := false
  ir := 0x0000#16
  report := none

/-- Reset: construction is the only one (R112). The parameters are the model's choice (log entry 1). -/
def State.reset : State := State.initial Params.standard

end Sys2Proof.Machine
end

