-- ==== Sys2Proof/Machine/Ops.lean ====
section
/-! DEFINITION. The named operations over banks, registers, memory and the counter (spec/20_memory.md), and the parts of a cycle
around the operation it executes (spec/40_cycle_and_dispatch.md, spec/60_exceptions.md). -/

namespace Sys2Proof.Machine

/-- The cell at index `a` (R13): its value when it is set, none when it is unset. -/
def Bank.cell : Bank → Nat → Option Byte
  | [], _ => none
  | (k, v) :: rest, a => if a = k then some v else Bank.cell rest a

/-- The read port (R29): the cell's value, 0 if it is unset. -/
def Bank.read (b : Bank) (a : Nat) : Byte := (b.cell a).getD 0x00#8

/-- The write port (R30): the cell takes the value and becomes set. -/
def Bank.write : Bank → Nat → Byte → Bank
  | [], a, v => [(a, v)]
  | (k, x) :: rest, a, v =>
    if a < k then (a, v) :: (k, x) :: rest
    else if a = k then (a, v) :: rest
    else (k, x) :: Bank.write rest a v

/-- Writing a run of values from index `a` up, each by the write port (R42, R43). -/
def Bank.writeRun : Bank → Nat → List Byte → Bank
  | b, _, [] => b
  | b, a, v :: vs => Bank.writeRun (b.write a v) (a + 1) vs

/-- The indices rise strictly, from `lo` or above, and stay below `size`. -/
def Bank.risesFrom (size : Nat) : Nat → Bank → Bool
  | _, [] => true
  | lo, (k, _) :: rest => decide (lo ≤ k) && decide (k < size) && Bank.risesFrom size (k + 1) rest

/-- The canonical form of a bank of `size` cells: indices strictly rising, each selected by the address decoder (R28). -/
def Bank.wf (size : Nat) (b : Bank) : Bool := Bank.risesFrom size 0 b

/-- Memory is in its canonical form. -/
def Memory.wf (s : State) : Bool := Bank.wf s.params.memSize s.mem

/-- The register bank is in its canonical form. -/
def Registers.wf (s : State) : Bool := Bank.wf s.params.regCount s.regs

/-- The bank's length: N or M (R28). -/
def bankSize (s : State) : Space → Nat
  | .memory => s.params.memSize
  | .register => s.params.regCount

/-- The bank of an address space (R27). -/
def bankOf (s : State) : Space → Bank
  | .memory => s.mem
  | .register => s.regs

/-- `x[r]` (R9, R29). -/
def readReg (s : State) (r : Digit) : Byte := s.regs.read r.toNat

/-- `x[r] <- v` (R9, R30). -/
def writeReg (s : State) (r : Digit) (v : Byte) : State := { s with regs := s.regs.write r.toNat v }

/-- `MemRead(a, 1)` (R9, R29). -/
def readMem (s : State) (a : Nat) : Byte := s.mem.read a

/-- `MemWrite(a, 1, v)` (R9, R30). -/
def writeMem (s : State) (a : Nat) (v : Byte) : State := { s with mem := s.mem.write a v }

/-- `pc <- t` (R9). -/
def setPc (s : State) (t : Counter) : State := { s with pc := t }

/-- The cycle returns an outcome to its caller (R61, R72). -/
def answer (s : State) (o : CycleOutcome) : State := { s with report := some o }

/-- `pc + 1 < N`, exact on the 9-bit counter (R63). -/
def fetchable (s : State) : Bool := decide (s.pc.toNat + 1 < s.params.memSize)

/-- Why a requested cycle does not execute, in the order of R102, or none if it executes (R62, R63). -/
def gate (s : State) : Option CycleOutcome :=
  if s.halted then some .notRunHalted
  else if fetchable s then none
  else some .endOfProgram

/-- `W = {MemRead(pc, 1), MemRead(pc + 1, 1)}` (R47, R64): big-endian. -/
def fetchWord (s : State) : Word := wordOfBytes (readMem s s.pc.toNat) (readMem s (s.pc.toNat + 1))

/-- Fetch and advance (R64, R65): the word goes to `ir` (R25), and `pc <- pc + 2` before dispatch. -/
def fetched (s : State) : State := { s with ir := fetchWord s, pc := s.pc + 2#9 }

/-- `raise AddressError(e)` (R9, R97): the error's one shared operation. The cycle ends with the outcome, which names the operand; no
register, memory cell or `halted` is written and `pc` keeps the advance. There is no trap entry and no return (R103, R104). -/
def raiseAddressError (s : State) (e : Operand) : State := answer s (.addressError e)

/-- `report UnknownOpcode(op, W)` (R9, R98): no effect beyond the advance already made. -/
def reportUnknownOpcode (s : State) (op : Digit) (rest : BitVec 12) : State := answer s (.unknownOpcode op (op ++ rest))

/-- An instruction's two bytes stored where the fetch of `s` reads them (R31, R36). -/
def placeWord (s : State) (w : Word) : State :=
  writeMem (writeMem s s.pc.toNat (highByte w)) (s.pc.toNat + 1) (lowByte w)

end Sys2Proof.Machine
end

