-- ==== Sys2Proof/Machine/Operands.lean ====
section
/-! DEFINITION. Operand validation (spec/40_cycle_and_dispatch.md rules R66 to R69): every operand form there is. -/

namespace Sys2Proof.Machine

/-- A register field as an operand (R51, R66). -/
def registerOperand (l : Letter) (r : Digit) : Operand := ⟨.register, l, r.setWidth 8⟩

/-- The data address `XY` of opcodes 1 and 3 as an operand (R50, R67). -/
def memoryOperand (addr : Byte) : Operand := ⟨.memory, .XY, addr⟩

/-- The address decoder's check (R28, R66, R67): the value is below the bank's length. -/
def operandValid (s : State) (e : Operand) : Bool := decide (e.value.toNat < bankSize s e.space)

/-- `validate(d)` (R68): the first operand, in the order given, that fails. -/
def firstInvalid (s : State) : List Operand → Option Operand
  | [] => none
  | e :: rest => if operandValid s e then firstInvalid s rest else some e

/-- Validate, then execute (R61, R68, R69): if an operand fails, AddressError and nothing else; otherwise the handler's effect and the
outcome OK. A handler cannot fail. -/
def validated (s : State) (operands : List Operand) (effect : State → State) : Host.Outcome State Fault Refusal :=
  match firstInvalid s operands with
  | some e => .next (raiseAddressError s e)
  | none => .next (answer (effect s) .ok)

end Sys2Proof.Machine
end

