-- ==== Sys2Proof/Machine/AluInstructions.lean ====
section
/-! DEFINITION. The ALU instructions (spec/42_alu.md rules R87 to R92). -/

namespace Sys2Proof.Machine

/-- The shape `oRST` (R49): operands R, S, T checked in that order (R68), then R takes `f` of S and T, both read before the write (R17). -/
def aluRst (f : Byte → Byte → Byte) (r a b : Digit) (s : State) : Host.Outcome State Fault Refusal :=
  validated s [registerOperand .R r, registerOperand .S a, registerOperand .T b] fun s =>
    writeReg s r (f (readReg s a) (readReg s b))

/-- `ADD rR, rS, rT` (R87). -/
def execAdd (r a b : Digit) (s : State) : Host.Outcome State Fault Refusal := aluRst (add8 s.params.addOverflow) r a b s

/-- `ADD6 rR, rS, rT` (R88): "identical behavior to opcode 5". -/
def execAdd6 (r a b : Digit) (s : State) : Host.Outcome State Fault Refusal := aluRst (add8 s.params.addOverflow) r a b s

/-- `OR rR, rS, rT` (R89). -/
def execOr (r a b : Digit) (s : State) : Host.Outcome State Fault Refusal := aluRst or8 r a b s

/-- `AND rR, rS, rT` (R90). -/
def execAnd (r a b : Digit) (s : State) : Host.Outcome State Fault Refusal := aluRst and8 r a b s

/-- `XOR rR, rS, rT` (R91). -/
def execXor (r a b : Digit) (s : State) : Host.Outcome State Fault Refusal := aluRst xor8 r a b s

/-- `ROR rR, rX` (R92): the count is the contents of register X mod 8, not the digit X (C5). -/
def execRor (r x : Digit) (s : State) : Host.Outcome State Fault Refusal :=
  validated s [registerOperand .R r, registerOperand .X x] fun s =>
    writeReg s r (rotr8 (readReg s r) (rotateCount (readReg s x)))

end Sys2Proof.Machine
end

