-- ==== Sys2Proof/Machine/Flags.lean ====
section
/-! DEFINITION. The one flag of the machine, `halted` (spec/10_state.md rule R21). There are no condition codes and the ALU sets no flag
(R22), so no flag is computed from a result. -/

namespace Sys2Proof.Machine

/-- `halted <- 1` (R94): RUNNING to HALTED, by opcode c alone (R60). -/
def setHalted (s : State) : State := { s with halted := true }

/-- `halted <- 0`, the caller's alone (R71). -/
def resetHalted (s : State) : State := { s with halted := false }

end Sys2Proof.Machine
end

