-- ==== Sys2Proof/Machine/Control.lean ====
section
/-! DEFINITION. The control instructions (spec/43_control.md) and the unknown opcodes (spec/60_exceptions.md rule R98). -/

namespace Sys2Proof.Machine

/-- `JEQ rR, XY` (R93): an absolute jump, its target not checked (R67, D9). -/
def execJeq (r : Digit) (target : Byte) (s : State) : Host.Outcome State Fault Refusal :=
  validated s [registerOperand .R r] fun s =>
    if readReg s r = readReg s 0#4 then setPc s (target.setWidth 9) else s

/-- `HALT` (R94): nothing is validated; `pc` keeps the advance (C2). -/
def execHalt (s : State) : Host.Outcome State Fault Refusal := validated s [] setHalted

/-- Opcode 0 (R54, R98). -/
def execUnknown0 (rest : BitVec 12) (s : State) : Host.Outcome State Fault Refusal := .next (reportUnknownOpcode s 0x0#4 rest)

/-- Opcode d (R54, R98). -/
def execUnknownD (rest : BitVec 12) (s : State) : Host.Outcome State Fault Refusal := .next (reportUnknownOpcode s 0xD#4 rest)

/-- Opcode e (R54, R98). -/
def execUnknownE (rest : BitVec 12) (s : State) : Host.Outcome State Fault Refusal := .next (reportUnknownOpcode s 0xE#4 rest)

/-- Opcode f (R54, R98). -/
def execUnknownF (rest : BitVec 12) (s : State) : Host.Outcome State Fault Refusal := .next (reportUnknownOpcode s 0xF#4 rest)

end Sys2Proof.Machine
end

