-- ==== Sys2Proof/Machine/DataTransfer.lean ====
section
/-! DEFINITION. The data transfer instructions (spec/41_data_transfer.md). Each runs with `pc` already advanced (R65). -/

namespace Sys2Proof.Machine

/-- `LD rR, [XY]` (R77). -/
def execLd (r : Digit) (addr : Byte) (s : State) : Host.Outcome State Fault Refusal :=
  validated s [registerOperand .R r, memoryOperand addr] fun s => writeReg s r (readMem s addr.toNat)

/-- `LDI rR, #XY` (R78): the immediate is never checked against N. -/
def execLdi (r : Digit) (imm : Byte) (s : State) : Host.Outcome State Fault Refusal :=
  validated s [registerOperand .R r] fun s => writeReg s r imm

/-- `ST rR, [XY]` (R79). -/
def execSt (r : Digit) (addr : Byte) (s : State) : Host.Outcome State Fault Refusal :=
  validated s [registerOperand .R r, memoryOperand addr] fun s => writeMem s addr.toNat (readReg s r)

/-- `MOV rS, rR` (R80): from R, digit 2, to S, digit 3. -/
def execMov (r d : Digit) (s : State) : Host.Outcome State Fault Refusal :=
  validated s [registerOperand .R r, registerOperand .S d] fun s => writeReg s d (readReg s r)

end Sys2Proof.Machine
end

