-- ==== Sys2Proof/Machine/Dispatch.lean ====
section
/-! DEFINITION. Dispatch (spec/40_cycle_and_dispatch.md rule R69): exactly one handler per decoded operation. -/

namespace Sys2Proof.Machine

/-- Run the decoded instruction on a state whose `pc` holds its address plus 2 (R61, R69). -/
def exec (i : Instr) (s : State) : Host.Outcome State Fault Refusal :=
  match i with
  | .ld r addr => Sys2Proof.Machine.execLd r addr s
  | .ldi r imm => Sys2Proof.Machine.execLdi r imm s
  | .st r addr => Sys2Proof.Machine.execSt r addr s
  | .mov r d => Sys2Proof.Machine.execMov r d s
  | .add r a b => Sys2Proof.Machine.execAdd r a b s
  | .add6 r a b => Sys2Proof.Machine.execAdd6 r a b s
  | .or r a b => Sys2Proof.Machine.execOr r a b s
  | .and r a b => Sys2Proof.Machine.execAnd r a b s
  | .xor r a b => Sys2Proof.Machine.execXor r a b s
  | .ror r x => Sys2Proof.Machine.execRor r x s
  | .jeq r target => Sys2Proof.Machine.execJeq r target s
  | .halt => Sys2Proof.Machine.execHalt s
  | .unknown0 rest => Sys2Proof.Machine.execUnknown0 rest s
  | .unknownD rest => Sys2Proof.Machine.execUnknownD rest s
  | .unknownE rest => Sys2Proof.Machine.execUnknownE rest s
  | .unknownF rest => Sys2Proof.Machine.execUnknownF rest s

end Sys2Proof.Machine
end

