-- ==== Sys2Proof/Machine/Step.lean ====
section
/-! DEFINITION. One cycle request (spec/40_cycle_and_dispatch.md rules R61, R72). -/

namespace Sys2Proof.Machine

/-- One cycle (R61): the gates, then fetch, advance, decode and execute, as one transition (D1). A request that executes no cycle changes
nothing but what it returns (R62, R63). -/
def step (s : State) : Host.Outcome State Fault Refusal :=
  if s.params.legal then
    match gate s with
    | some o => .next (answer s o)
    | none => exec (decode (fetched s).ir) (fetched s)
  else .fault .noSuchMachine

/-- `s` with an instruction stored where `step` fetches its next one, as the host's `write_memory` and `clear_halted` would leave it before a
`step()` (R42, R71, R113). The two cells at `pc` are written only where they exist (log entry 12). -/
def State.withFetchWord (s : State) (nbits w : Nat) : State :=
  if fetchable s then placeWord (resetHalted s) (tableWord nbits w) else resetHalted s

end Sys2Proof.Machine
end

