-- ==== Sys2Proof/Machine/Requests.lean ====
section
/-! DEFINITION. The caller's requests other than `step` and `run` (spec/20_memory.md section 6, spec/40_cycle_and_dispatch.md section 5,
spec/70_reset_and_hazards.md), each one atomic and issued only between cycles (R38, R117), and the codes of R96. -/

namespace Sys2Proof.Machine

/-- The outcome of a storage or counter request (R96, R117). -/
inductive HostOutcome where
  | ok
  /-- A value is not a hex byte (R101). -/
  | formatError
  /-- An address or index is not below the bank's length (R97). -/
  | addressError
  deriving DecidableEq, Repr

/-- `new_machine` with a parameter out of range (R111). -/
inductive Rejection where
  | constructionRejected
  deriving DecidableEq, Repr

/-- A value the host supplies (R44): text, or the "equivalent numeric form". The list of a run's values is D20's. -/
inductive HostValue where
  | text (chars : List Char)
  | number (n : Int)
  deriving DecidableEq, Repr

/-- What the read accessors return of one cell (R46): its id (R13), set flag, value (0 if unset) and rendering. -/
structure CellView where
  id : Nat
  set : Bool
  value : Byte
  rendering : List Char
  deriving DecidableEq, Repr

/-- The numeric code of a cycle's outcome (R96). -/
def CycleOutcome.code : CycleOutcome → Nat
  | .ok => 0
  | .addressError _ => 2
  | .unknownOpcode _ _ => 3
  | .endOfProgram => 4
  | .notRunHalted => 5

/-- The numeric code of a host request's outcome (R96). -/
def HostOutcome.code : HostOutcome → Nat
  | .ok => 0
  | .formatError => 1
  | .addressError => 2

/-- The numeric code of a rejected construction (R96). -/
def Rejection.code : Rejection → Nat
  | .constructionRejected => 6

/-- `new_machine(N, M, PC_INIT)` (R111): a machine in the state of R26, or no machine. -/
def newMachine (p : Params) : Except Rejection State :=
  if p.legal then .ok (State.initial p) else .error .constructionRejected

/-- The value of a hexadecimal digit, of either case (R44). -/
def hexDigitValue (c : Char) : Option Nat :=
  if 48 ≤ c.toNat ∧ c.toNat ≤ 57 then some (c.toNat - 48)
  else if 97 ≤ c.toNat ∧ c.toNat ≤ 102 then some (c.toNat - 87)
  else if 65 ≤ c.toNat ∧ c.toNat ≤ 70 then some (c.toNat - 55)
  else none

/-- One or two hexadecimal digits as a byte (R44); anything else is no byte. -/
def parseText : List Char → Option Byte
  | [c] => (hexDigitValue c).map (BitVec.ofNat 8)
  | [c, d] => (hexDigitValue c).bind fun hi => (hexDigitValue d).map fun lo => BitVec.ofNat 8 (16 * hi + lo)
  | [] => none
  | _ :: _ :: _ :: _ => none

/-- The byte a host value stands for, none for a FormatError (R44, R101). -/
def parseValue : HostValue → Option Byte
  | .text chars => parseText chars
  | .number n => if 0 ≤ n ∧ n ≤ 255 then some (BitVec.ofInt 8 n) else none

/-- The bytes of a run of values, none if any value fails (R42). -/
def parseRun : List HostValue → Option (List Byte)
  | [] => some []
  | v :: vs => (parseValue v).bind fun b => (parseRun vs).map fun bs => b :: bs

/-- The state with one of its banks replaced (R27). -/
def withBank (s : State) (space : Space) (b : Bank) : State :=
  match space with
  | .memory => { s with mem := b }
  | .register => { s with regs := b }

/-- A host write of k ≥ 1 values to the cells from `a` up (R42, R43): the format is checked first, then every address; a failed write
writes no cell (D14). -/
def writeBank (space : Space) (s : State) (a : Nat) (first : HostValue) (more : List HostValue) : HostOutcome × State :=
  match parseRun (first :: more) with
  | none => (.formatError, s)
  | some bytes =>
    if a + bytes.length ≤ bankSize s space then (.ok, withBank s space ((bankOf s space).writeRun a bytes))
    else (.addressError, s)

/-- `write_memory(a, v0, ..., vk-1)` (R42). -/
def writeMemory (s : State) (a : Nat) (first : HostValue) (more : List HostValue) : HostOutcome × State :=
  writeBank .memory s a first more

/-- `write_register(i, v0, ..., vk-1)` (R43). -/
def writeRegister (s : State) (i : Nat) (first : HostValue) (more : List HostValue) : HostOutcome × State :=
  writeBank .register s i first more

/-- One lowercase hexadecimal digit (R45). -/
def hexDigitChar (n : Nat) : Char := if n < 10 then Char.ofNat (48 + n) else Char.ofNat (87 + n)

/-- A cell's display (R45): two lowercase digits when set, `__` when unset (D3). -/
def renderCell : Option Byte → List Char
  | none => ['_', '_']
  | some v => [hexDigitChar (v.toNat / 16), hexDigitChar (v.toNat % 16)]

/-- `render(a)` (R45). -/
def render (space : Space) (s : State) (a : Nat) : Except HostOutcome (List Char) :=
  if a < bankSize s space then .ok (renderCell ((bankOf s space).cell a)) else .error .addressError

/-- The read accessors of one cell (R46); `pc` and `halted` are read as the fields they are. -/
def inspect (space : Space) (s : State) (a : Nat) : Except HostOutcome CellView :=
  if a < bankSize s space then
    .ok { id := a, set := ((bankOf s space).cell a).isSome, value := (bankOf s space).read a,
          rendering := renderCell ((bankOf s space).cell a) }
  else .error .addressError

/-- `set_instruction_counter(a)` (R70). -/
def setInstructionCounter (s : State) (a : Nat) : HostOutcome × State :=
  if a < s.params.memSize then (.ok, setPc s (BitVec.ofNat 9 a)) else (.addressError, s)

/-- `clear_halted()` (R71). -/
def clearHalted (s : State) : HostOutcome × State := (.ok, resetHalted s)

/-- What a `step()` that left `after` returns to the caller: the cycle's outcome and `halted` after it (R72). -/
def stepAnswer (after : State) : Option CycleOutcome × Bool := (after.report, after.halted)

end Sys2Proof.Machine
end

