-- ==== Sys2Proof/Machine/Run.lean ====
section
/-! DEFINITION. The `run()` request (spec/40_cycle_and_dispatch.md rules R73 to R76), one pass of its loop at a time, so that a run that
never returns (R75) is one that has no last pass. -/

namespace Sys2Proof.Machine

/-- The stop reasons of a run (R73, R96). -/
inductive StopReason where
  | halted
  | endOfProgram
  | addressError
  | notRunHalted
  /-- Only under `THREE_AHEAD` (R74). -/
  | guardStop
  /-- Only with a budget (R75). -/
  | budgetExhausted
  deriving DecidableEq, Repr

/-- A run in progress, or returned once `stop` is set (R73). -/
structure RunState where
  machine : State
  /-- The cycles executed so far. -/
  count : Nat
  /-- The outcome of the last cycle attempted, none before the first. -/
  last : Option CycleOutcome
  /-- The run's history of reported unknown opcodes, oldest first (R98, R110). -/
  events : List CycleOutcome
  /-- The stop reason, none while the run goes on. -/
  stop : Option StopReason
  deriving DecidableEq, Repr

/-- A run requested in `s`. -/
def runStart (s : State) : RunState := { machine := s, count := 0, last := none, events := [], stop := none }

/-- `run_continue(pc)` (R74). -/
def runContinue (s : State) : Bool :=
  match s.params.runContinue with
  | .fetchable => decide (s.pc.toNat + 1 < s.params.memSize)
  | .threeAhead => decide (s.pc.toNat + 3 < s.params.memSize)

/-- The cycle executed: it was not turned away by a gate (R62, R63). -/
def CycleOutcome.executed : CycleOutcome → Bool
  | .ok => true
  | .addressError _ => true
  | .unknownOpcode _ _ => true
  | .endOfProgram => false
  | .notRunHalted => false

/-- The outcome is a reported event of the run's history (R110). -/
def CycleOutcome.isEvent : CycleOutcome → Bool
  | .ok => false
  | .addressError _ => false
  | .unknownOpcode _ _ => true
  | .endOfProgram => false
  | .notRunHalted => false

/-- Whether a run goes on after an executed cycle that raised no error (R73): HALTED first, then the guard. -/
def guardedStop (s : State) : Option StopReason :=
  if s.halted then some .halted
  else if runContinue s then none
  else if fetchable s then some .guardStop
  else some .endOfProgram

/-- The stop reason after a cycle that left `s` with outcome `o` (R73). -/
def stopAfter (s : State) (o : CycleOutcome) : Option StopReason :=
  match o with
  | .notRunHalted => some .notRunHalted
  | .endOfProgram => some .endOfProgram
  | .addressError _ => some .addressError
  | .ok => guardedStop s
  | .unknownOpcode _ _ => guardedStop s

/-- The run after a cycle that left the machine in `s` with outcome `o` (R73). -/
def afterCycle (rs : RunState) (s : State) (o : CycleOutcome) : RunState where
  machine := s
  count := if o.executed then rs.count + 1 else rs.count
  last := some o
  events := if o.isEvent then rs.events ++ [o] else rs.events
  stop := stopAfter s o

/-- One pass of the loop of R73. A run that has returned stays as it is. Every cycle leaves its outcome in `report` (log entry 2). -/
def runPass (rs : RunState) : Host.Outcome RunState Fault Refusal :=
  if rs.stop.isSome then .next rs
  else if rs.machine.params.runBudget = some rs.count then .next { rs with stop := some .budgetExhausted }
  else
    match step rs.machine with
    | .next s => .next (afterCycle rs s (s.report.getD .ok))
    | .fault r => .fault r
    | .refused r => .refused r

/-- `k` passes of the loop. -/
def runFor : Nat → RunState → Host.Outcome RunState Fault Refusal
  | 0, rs => .next rs
  | k + 1, rs =>
    match runPass rs with
    | .next rs' => runFor k rs'
    | .fault r => .fault r
    | .refused r => .refused r

end Sys2Proof.Machine
end

