-- ==== Sys2Proof/Safety.lean ====
section
/-! DEFINITION. The terms claims use: the invariant of the machine, and how spec/60_exceptions.md rule R110 and spec/40_cycle_and_dispatch.md
rule R76 classify outcomes and the ends of runs. -/

namespace Sys2Proof.Machine

/-- The invariant of the machine: parameters a machine can have (R111), both banks in canonical form with every set cell in range (R13, R28), and
the counter in 0 to 256 (R19). -/
def State.inv (s : State) : Bool :=
  s.params.legal && Memory.wf s && Registers.wf s && decide (s.pc.toNat ≤ 256)

/-- The last cycle ended in AddressError: a *fault* for claims about programs, though the caller may go on (R104, R110). -/
def State.faulted (s : State) : Bool :=
  match s.report with
  | some (.addressError _) => true
  | some .ok => false
  | some (.unknownOpcode _ _) => false
  | some .endOfProgram => false
  | some .notRunHalted => false
  | none => false

/-- The first `k` cycles from `s` all answer a next state, and none reports AddressError: the premise R110 gives a claim. -/
def safeFor : Nat → State → Bool
  | 0, _ => true
  | k + 1, s =>
    match step s with
    | .next t => !t.faulted && safeFor k t
    | .fault _ => false
    | .refused _ => false

/-- `run()` requested in `s` returns as `rs` says (R73). -/
def RunReturns (s : State) (rs : RunState) : Prop := ∃ k, runFor k (runStart s) = .next rs ∧ rs.stop.isSome = true

/-- `run()` requested in `s` never returns: an infinite run is a hang, and real behaviour (R75, R110). -/
def RunHangs (s : State) : Prop := ∀ k, ∃ rs, runFor k (runStart s) = .next rs ∧ rs.stop = none

/-- Every memory cell of `t` is as in `s`: the same set flag and value, so every read gives the same. -/
def SameMemory (s t : State) : Prop := ∀ a, t.mem.cell a = s.mem.cell a

/-- Every memory cell but the one at `a` is as in `s`. -/
def SameMemoryBut (a : Nat) (s t : State) : Prop := ∀ b, b ≠ a → t.mem.cell b = s.mem.cell b

/-- Every register cell of `t` is as in `s`. -/
def SameRegisters (s t : State) : Prop := ∀ j, t.regs.cell j = s.regs.cell j

/-- Every register cell but register `r` is as in `s`. -/
def SameRegistersBut (r : Digit) (s t : State) : Prop := ∀ j, j ≠ r.toNat → t.regs.cell j = s.regs.cell j

/-- The parameters, the counter, `halted` and `ir` of `t` are those of `s`. -/
def SameControl (s t : State) : Prop := t.params = s.params ∧ t.pc = s.pc ∧ t.halted = s.halted ∧ t.ir = s.ir

/-- Register operand `r` exists (R66). -/
abbrev HasReg (s : State) (r : Digit) : Prop := r.toNat < s.params.regCount

/-- Data address `a` exists (R67). -/
abbrev HasMem (s : State) (a : Byte) : Prop := a.toNat < s.params.memSize

/-- The register an operation writes, by the table of R17. -/
def writtenRegister : Instr → Option Digit
  | .ld r _ => some r
  | .ldi r _ => some r
  | .st _ _ => none
  | .mov _ d => some d
  | .add r _ _ => some r
  | .add6 r _ _ => some r
  | .or r _ _ => some r
  | .and r _ _ => some r
  | .xor r _ _ => some r
  | .ror r _ => some r
  | .jeq _ _ => none
  | .halt => none
  | .unknown0 _ => none
  | .unknownD _ => none
  | .unknownE _ => none
  | .unknownF _ => none

/-- The memory address an operation writes: opcode 3's alone (R12, R34). -/
def writtenCell : Instr → Option Byte
  | .ld _ _ => none
  | .ldi _ _ => none
  | .st _ addr => some addr
  | .mov _ _ => none
  | .add _ _ _ => none
  | .add6 _ _ _ => none
  | .or _ _ _ => none
  | .and _ _ _ => none
  | .xor _ _ _ => none
  | .ror _ _ => none
  | .jeq _ _ => none
  | .halt => none
  | .unknown0 _ => none
  | .unknownD _ => none
  | .unknownE _ => none
  | .unknownF _ => none

/-- The hexadecimal digits in lowercase, each at its value (R44, R45). -/
def lowerHexDigits : List Char := ['0', '1', '2', '3', '4', '5', '6', '7', '8', '9', 'a', 'b', 'c', 'd', 'e', 'f']

/-- The hexadecimal digits in uppercase, each at its value (R44). -/
def upperHexDigits : List Char := ['0', '1', '2', '3', '4', '5', '6', '7', '8', '9', 'A', 'B', 'C', 'D', 'E', 'F']

/-- A state the caller can bring about from `s` by one request other than `set_instruction_counter`, `clear_halted`, `step` and `run`: a
write to one of the banks (R42, R43), whether it succeeds or fails. -/
def AfterHostWrite (s t : State) : Prop :=
  ∃ a first more, t = (writeMemory s a first more).2 ∨ t = (writeRegister s a first more).2

end Sys2Proof.Machine
end

