-- ==== Sys2Proof/WellFormed.lean ====
section
/-! DEFINITION. When the machine's banks hold every operand of an instruction (spec/40_cycle_and_dispatch.md rules R66, R67). The
widths of the fields are in their types, so this is all that can be wrong with an instruction. -/

namespace Sys2Proof

/-- A register field is valid when its value is below M (R66). -/
def Params.hasRegister (p : Params) (r : Digit) : Bool := decide (r.toNat < p.regCount)

/-- A data address is valid when it is below N (R67). -/
def Params.hasCell (p : Params) (a : Byte) : Bool := decide (a.toNat < p.memSize)

/-- Every register and every data address the instruction uses exists on a machine built with `p`. The immediate of LDI and the
target of JEQ are not addresses (R67); HALT and the unknown opcodes have no operands (R68, R102). -/
def Instr.wellFormed (p : Params) : Instr → Bool
  | .ld r addr => p.hasRegister r && p.hasCell addr
  | .ldi r _ => p.hasRegister r
  | .st r addr => p.hasRegister r && p.hasCell addr
  | .mov r s => p.hasRegister r && p.hasRegister s
  | .add r s t => p.hasRegister r && p.hasRegister s && p.hasRegister t
  | .add6 r s t => p.hasRegister r && p.hasRegister s && p.hasRegister t
  | .or r s t => p.hasRegister r && p.hasRegister s && p.hasRegister t
  | .and r s t => p.hasRegister r && p.hasRegister s && p.hasRegister t
  | .xor r s t => p.hasRegister r && p.hasRegister s && p.hasRegister t
  | .ror r x => p.hasRegister r && p.hasRegister x
  | .jeq r _ => p.hasRegister r
  | .halt => true
  | .unknown0 _ => true
  | .unknownD _ => true
  | .unknownE _ => true
  | .unknownF _ => true

end Sys2Proof
end

