-- ==== Sys2Proof/Certificates/Slice0/Obligations.lean ====
section
/-! DEFINITION. The statements for the provers, from the numbered rules of spec/. Every statement is for every N, M and parameter value
unless it names one. -/

open Sys2Proof Sys2Proof.Machine

/-! ## Encoding (spec/30_encoding.md) -/

/-- Decoding the canonical word of an instruction, as a word and as two cells, gives the instruction (R53, R57, R58). Two clauses rest on the model's
choice of constructors: that the word of ADD6 gives add6 and not ADD is log entry 7 (DESIGN CHOICE; R53 gives 6RST the variant of 5RST), and that the words of
the unknown opcodes give back constructors that carry twelve bits is log entry 9 (DEDUCED). -/
def Obligations.DecodeInvertsEncode : Prop :=
  ∀ i : Instr, decode (encode i) = i ∧ decodeBytes (encodeBytes i) = .ok (i, [])

/-- Encoding what a word decodes to gives the word back, with 0 in the digits its opcode ignores (R49, R55). For the words 6RST this is the model's
choice, log entry 7 (DESIGN CHOICE): R53 decodes them to ADD, whose word is 5RST (R58), and the digit 6 is kept here only because opcode 6 has the constructor
add6. For the unknown opcodes it rests on constructors that carry the other twelve bits, log entry 9 (DEDUCED). -/
def Obligations.EncodeInvertsDecodeUpToIgnoredDigits : Prop :=
  ∀ w : Word, encode (decode w) =
    w &&& (if w.toNat / 4096 = 4 then 0xF0FF#16 else if w.toNat / 4096 = 10 then 0xFF0F#16
      else if w.toNat / 4096 = 12 then 0xF000#16 else 0xFFFF#16)

/-- An ignored digit is not decoded, so it is neither checked nor has an effect: opcode 4 ignores `W[11:8]`, opcode a `W[7:4]`, opcode c
`W[11:0]`; the canonical encoding puts 0 there (R55). -/
def Obligations.IgnoredDigitsHaveNoEffect : Prop :=
  ∀ (g h a b : Digit) (y z : BitVec 12) (s : State),
    decode (0x4#4 ++ g ++ a ++ b) = .mov a b ∧ decode (0xA#4 ++ a ++ g ++ b) = .ror a b ∧ decode (0xC#4 ++ y) = .halt ∧
    exec (decode (0x4#4 ++ g ++ a ++ b)) s = exec (decode (0x4#4 ++ h ++ a ++ b)) s ∧
    exec (decode (0xA#4 ++ a ++ g ++ b)) s = exec (decode (0xA#4 ++ a ++ h ++ b)) s ∧
    exec (decode (0xC#4 ++ y)) s = exec (decode (0xC#4 ++ z)) s ∧
    d1Field (encode (.mov a b)) = 0x0#4 ∧ d2Field (encode (.ror a b)) = 0x0#4 ∧ restField (encode .halt) = 0x000#12

/-- Words written out from the spec's encodings and its vectors of section 2.1 decode to what they stand for (R49, R53, R58). The clause for 0x6312 is the
model's choice, log entry 7 (DESIGN CHOICE): R53 and the vector give ADD, the variant of 5312, where the model has the constructor add6 of the same behaviour. The
clause for 0xD123 states UNKNOWN(op, W) in the form of log entry 9 (DEDUCED). -/
def Obligations.SpecWordsDecode : Prop :=
  decode 0x1310#16 = .ld 0x3#4 0x10#8 ∧ decode 0x2105#16 = .ldi 0x1#4 0x05#8 ∧ decode 0x4013#16 = .mov 0x1#4 0x3#4 ∧
  decode 0x6312#16 = .add6 0x3#4 0x1#4 0x2#4 ∧ decode 0x7ABC#16 = .or 0xA#4 0xB#4 0xC#4 ∧
  decode 0xA1F2#16 = .ror 0x1#4 0x2#4 ∧ decode 0xB0FF#16 = .jeq 0x0#4 0xFF#8 ∧ decode 0xCABC#16 = .halt ∧
  decode 0xD123#16 = .unknownD 0x123#12

/-- The opcode map by arithmetic on the word's number: the digit `W / 4096` alone selects the operation, and the operands are the digits the
operation's shape gives them (R48, R49, R52, R53). The clause for `op = 6` is the model's choice, log entry 7 (DESIGN CHOICE): R53 decodes 6RST to ADD, the variant of
5RST, and the model has the constructor add6 of the same behaviour. The clauses for `op = 0, 13, 14, 15` state UNKNOWN(op, W) by the constructors of log entry 9
(DEDUCED), which carry the word's other twelve bits. -/
def Obligations.TopDigitSelectsTheOperation : Prop :=
  ∀ w : Word,
    let op := w.toNat / 4096
    let d1 : Digit := BitVec.ofNat 4 (w.toNat / 256)
    let d2 : Digit := BitVec.ofNat 4 (w.toNat / 16)
    let d3 : Digit := BitVec.ofNat 4 w.toNat
    let xy : Byte := BitVec.ofNat 8 w.toNat
    let rest : BitVec 12 := BitVec.ofNat 12 w.toNat
    op < 16 ∧
    (op = 0 → decode w = .unknown0 rest) ∧ (op = 1 → decode w = .ld d1 xy) ∧ (op = 2 → decode w = .ldi d1 xy) ∧
    (op = 3 → decode w = .st d1 xy) ∧ (op = 4 → decode w = .mov d2 d3) ∧ (op = 5 → decode w = .add d1 d2 d3) ∧
    (op = 6 → decode w = .add6 d1 d2 d3) ∧ (op = 7 → decode w = .or d1 d2 d3) ∧ (op = 8 → decode w = .and d1 d2 d3) ∧
    (op = 9 → decode w = .xor d1 d2 d3) ∧ (op = 10 → decode w = .ror d1 d3) ∧ (op = 11 → decode w = .jeq d1 xy) ∧
    (op = 12 → decode w = .halt) ∧ (op = 13 → decode w = .unknownD rest) ∧ (op = 14 → decode w = .unknownE rest) ∧
    (op = 15 → decode w = .unknownF rest)

/-- Opcode 6 does on every machine what opcode 5 does with the same digits (R56, R88). -/
def Obligations.OpcodeSixRunsAsOpcodeFive : Prop :=
  ∀ (rest : BitVec 12) (s : State), exec (decode (0x6#4 ++ rest)) s = exec (decode (0x5#4 ++ rest)) s

/-! ## The cycle (spec/40_cycle_and_dispatch.md, spec/60_exceptions.md) -/

/-- The fetch reads the cells at `pc` and `pc + 1`; the one at `pc` is the high byte and holds the opcode digit (R31). -/
def Obligations.FetchIsBigEndian : Prop :=
  ∀ s : State,
    (fetchWord s).toNat = 256 * (s.mem.read s.pc.toNat).toNat + (s.mem.read (s.pc.toNat + 1)).toNat ∧
    (opField (fetchWord s)).toNat = (s.mem.read s.pc.toNat).toNat / 16

/-- When the two cells at `pc` decode to `i`, a step is `exec i` on the state with the word in `ir` and `pc` advanced by 2, which does not wrap
(R61, R64, R65). -/
def Obligations.StepRunsTheDecodedInstruction : Prop :=
  ∀ (s : State) (i : Instr), s.params.legal = true → s.halted = false → s.pc.toNat + 1 < s.params.memSize →
    decodeBytes [s.mem.read s.pc.toNat, s.mem.read (s.pc.toNat + 1)] = .ok (i, []) →
    step s = exec i { s with ir := wordOfBytes (s.mem.read s.pc.toNat) (s.mem.read (s.pc.toNat + 1)), pc := s.pc + 2#9 } ∧
    (s.pc + 2#9).toNat = s.pc.toNat + 2 ∧ (s.pc + 2#9).toNat ≤ 256

/-- A word placed at the counter is the next instruction to run, and the placing changes no register and no other cell (R36, R113; the placing is
the model's, log entry 12). -/
def Obligations.PlacedWordRunsNext : Prop :=
  ∀ (s : State) (w : Word), s.params.legal = true → s.pc.toNat + 1 < s.params.memSize →
    let t := s.withFetchWord 16 w.toNat
    step t = exec (decode w) (fetched t) ∧ decodeTableWord 16 w.toNat = some (decode w) ∧ SameRegisters s t ∧ t.pc = s.pc ∧
    (∀ a, a ≠ s.pc.toNat → a ≠ s.pc.toNat + 1 → t.mem.cell a = s.mem.cell a)

/-- While `halted` is 1 no cycle executes: a step changes nothing but what it returns, and a run executes zero cycles (R62). -/
def Obligations.HaltedMachineRunsNoCycle : Prop :=
  ∀ s : State, s.params.legal = true → s.halted = true →
    step s = .next (answer s .notRunHalted) ∧
    (∀ k rs, runFor k (runStart s) = .next rs → rs.count = 0 ∧ (rs.machine = s ∨ rs.machine = answer s .notRunHalted)) ∧
    (s.params.runBudget ≠ some 0 →
      ∃ rs, runFor 1 (runStart s) = .next rs ∧ rs.stop = some .notRunHalted ∧ rs.last = some .notRunHalted ∧ rs.count = 0)

/-- With `halted = 0` and `pc + 1 ≥ N` a cycle has no effect and answers END_OF_PROGRAM; after the caller moves `pc` to an `a` with `a + 1 < N` the
next request executes; no other request and no further step ends it (R99). -/
def Obligations.EndOfProgramUntilTheCounterIsMoved : Prop :=
  ∀ s : State, s.params.legal = true → s.halted = false → ¬ s.pc.toNat + 1 < s.params.memSize →
    step s = .next (answer s .endOfProgram) ∧ CycleOutcome.endOfProgram.code = 4 ∧
    (∀ a, a + 1 < s.params.memSize → ∃ t u o, setInstructionCounter s a = (.ok, t) ∧ t.pc.toNat = a ∧
      step t = exec (decode (fetchWord t)) (fetched t) ∧ step t = .next u ∧ u.report = some o ∧ o.executed = true) ∧
    (∀ t, AfterHostWrite s t ∨ t = (clearHalted s).2 ∨ step s = .next t → step t = .next (answer t .endOfProgram))

/-- The outcome of a cycle is the first that applies of NOT_RUN_HALTED, END_OF_PROGRAM, UNKNOWN_OPCODE, ADDRESS_ERROR, OK (R102). -/
def Obligations.OutcomeFollowsTheOrderOfChecks : Prop :=
  ∀ s : State, s.params.legal = true →
    let w := fetchWord s
    let unknown := opField w = 0x0#4 ∨ opField w = 0xD#4 ∨ opField w = 0xE#4 ∨ opField w = 0xF#4
    ∃ t, step s = .next t ∧
      (s.halted = true → t.report = some .notRunHalted) ∧
      (s.halted = false → ¬ s.pc.toNat + 1 < s.params.memSize → t.report = some .endOfProgram) ∧
      (s.halted = false → s.pc.toNat + 1 < s.params.memSize → unknown → t.report = some (.unknownOpcode (opField w) w)) ∧
      (s.halted = false → s.pc.toNat + 1 < s.params.memSize → ¬ unknown → (decode w).wellFormed s.params = false →
        ∃ e, t.report = some (.addressError e) ∧ operandValid s e = false) ∧
      (s.halted = false → s.pc.toNat + 1 < s.params.memSize → ¬ unknown → (decode w).wellFormed s.params = true →
        t.report = some .ok)

/-- Nothing is refused: every instruction answers a next state on every state, and a step does exactly on the parameters a machine can have (R69, R103,
R111; that a state of no machine faults is the model's choice, log entry 8). -/
def Obligations.EveryMachineAlwaysSteps : Prop :=
  (∀ (i : Instr) (s : State), ∃ t, exec i s = .next t) ∧
  (∀ s : State, (∃ t, step s = .next t) ↔ s.params.legal = true)

/-- Errors are precise: a cycle that reports ADDRESS_ERROR or UNKNOWN_OPCODE has changed only `pc` (the advance; and the hidden `ir`), one that reports
END_OF_PROGRAM or NOT_RUN_HALTED has changed nothing, and a failed host request has changed nothing (R103). -/
def Obligations.ErrorsArePrecise : Prop :=
  (∀ s t o, step s = .next t → t.report = some o →
    (∀ e, o = .addressError e → t = { s with pc := s.pc + 2#9, ir := fetchWord s, report := some o }) ∧
    (∀ op w, o = .unknownOpcode op w → t = { s with pc := s.pc + 2#9, ir := fetchWord s, report := some o }) ∧
    (o = .endOfProgram ∨ o = .notRunHalted → t = { s with report := some o })) ∧
  (∀ s a first more,
    ((writeMemory s a first more).1 ≠ .ok → (writeMemory s a first more).2 = s) ∧
    ((writeRegister s a first more).1 ≠ .ok → (writeRegister s a first more).2 = s) ∧
    ((setInstructionCounter s a).1 ≠ .ok → (setInstructionCounter s a).2 = s))

/-! ## Data transfer (spec/41_data_transfer.md): each instruction's completion, result and frame -/

/-- LD: the register is set to the memory cell's value, 0 if it is unset; nothing else changes (R77). -/
def Obligations.LdLoadsTheMemoryCell : Prop :=
  ∀ (s : State) (r : Digit) (a : Byte), HasReg s r → HasMem s a →
    ∃ t, exec (.ld r a) s = .next t ∧ t.report = some .ok ∧ t.regs.cell r.toNat = some (s.mem.read a.toNat) ∧
      SameRegistersBut r s t ∧ SameMemory s t ∧ SameControl s t

/-- LDI: the register is set to the immediate, which is never checked; nothing else changes (R78, R67). -/
def Obligations.LdiLoadsTheImmediate : Prop :=
  ∀ (s : State) (r : Digit) (imm : Byte), HasReg s r →
    ∃ t, exec (.ldi r imm) s = .next t ∧ t.report = some .ok ∧ t.regs.cell r.toNat = some imm ∧
      SameRegistersBut r s t ∧ SameMemory s t ∧ SameControl s t

/-- ST: the memory cell is set to the register's value, 0 if it is unset; nothing else changes (R79). -/
def Obligations.StStoresTheRegister : Prop :=
  ∀ (s : State) (r : Digit) (a : Byte), HasReg s r → HasMem s a →
    ∃ t, exec (.st r a) s = .next t ∧ t.report = some .ok ∧ t.mem.cell a.toNat = some (s.regs.read r.toNat) ∧
      SameMemoryBut a.toNat s t ∧ SameRegisters s t ∧ SameControl s t

/-- MOV: the second register named takes the value of the first, 0 if it is unset; nothing else changes (R80). -/
def Obligations.MovCopiesTheFirstRegisterToTheSecond : Prop :=
  ∀ (s : State) (r d : Digit), HasReg s r → HasReg s d →
    ∃ t, exec (.mov r d) s = .next t ∧ t.report = some .ok ∧ t.regs.cell d.toNat = some (s.regs.read r.toNat) ∧
      SameRegistersBut d s t ∧ SameMemory s t ∧ SameControl s t

/-! ## The ALU (spec/42_alu.md) -/

/-- ADD and ADD6: the two sources are read as signed bytes and added exactly; a sum of magnitude up to 127 is the result, any other goes through
ADD_OVERFLOW; the register takes it mod 256; nothing else changes (R81, R82, R83, R87, R88). For a named alternative of ADD_OVERFLOW the
corrected sum is a free value (log entry 4). -/
def Obligations.AddWritesTheCorrectedSum : Prop :=
  ∀ (s : State) (r a b : Digit), HasReg s r → HasReg s a → HasReg s b →
    ∀ i ∈ [Instr.add r a b, Instr.add6 r a b],
      let sum := (s.regs.read a.toNat).toInt + (s.regs.read b.toNat).toInt
      ∃ t, exec i s = .next t ∧ t.report = some .ok ∧
        t.regs.cell r.toNat =
          some (BitVec.ofInt 8 (if -127 ≤ sum ∧ sum ≤ 127 then sum else addOverflow s.params.addOverflow sum)) ∧
        SameRegistersBut r s t ∧ SameMemory s t ∧ SameControl s t

/-- OR, AND and XOR: bit by bit, whatever the register held before; nothing else changes (R84, R89, R90, R91). -/
def Obligations.BitwiseInstructionsActBitByBit : Prop :=
  ∀ (s : State) (r a b : Digit), HasReg s r → HasReg s a → HasReg s b →
    ∀ p ∈ [(Instr.or r a b, Bool.or), (Instr.and r a b, Bool.and), (Instr.xor r a b, Bool.xor)],
      ∃ t v, exec p.1 s = .next t ∧ t.report = some .ok ∧ t.regs.cell r.toNat = some v ∧
        (∀ n < 8, v.getLsbD n = p.2 ((s.regs.read a.toNat).getLsbD n) ((s.regs.read b.toNat).getLsbD n)) ∧
        SameRegistersBut r s t ∧ SameMemory s t ∧ SameControl s t

/-- ROR: bit `n` of the result is bit `(n + k) mod 8` of the register's old value, `k` the CONTENTS of the count register mod 8; nothing else
changes (R85, R92). -/
def Obligations.RorRotatesByTheCountRegister : Prop :=
  ∀ (s : State) (r x : Digit), HasReg s r → HasReg s x →
    ∃ t v, exec (.ror r x) s = .next t ∧ t.report = some .ok ∧ t.regs.cell r.toNat = some v ∧
      (∀ n < 8, v.getLsbD n = (s.regs.read r.toNat).getLsbD ((n + (s.regs.read x.toNat).toNat % 8) % 8)) ∧
      SameRegistersBut r s t ∧ SameMemory s t ∧ SameControl s t

/-- On a machine built with NEGATE, ADD and ADD6 write the wrapped sum when the signed sum's magnitude is at most 127 and its negation otherwise, which
is the wrapped sum exactly at -256, -128 and 128 (R83). -/
def Obligations.NegateBandOfTheAdd : Prop :=
  ∀ (s : State) (r a b : Digit), HasReg s r → HasReg s a → HasReg s b → s.params.addOverflow = .negate →
    ∀ i ∈ [Instr.add r a b, Instr.add6 r a b],
      let x := s.regs.read a.toNat
      let y := s.regs.read b.toNat
      let sum := x.toInt + y.toInt
      ∃ t v, exec i s = .next t ∧ t.regs.cell r.toNat = some v ∧
        (-127 ≤ sum ∧ sum ≤ 127 → v = x + y) ∧
        (¬ (-127 ≤ sum ∧ sum ≤ 127) → v = -(x + y)) ∧
        (v = x + y ↔ (-127 ≤ sum ∧ sum ≤ 127) ∨ sum = -256 ∨ sum = -128 ∨ sum = 128)

/-- The rotate by `k` in 0 to 7: the spec's formula with its mask, its bits, and nothing for `k = 0` (R85). -/
def Obligations.RotateFormulaAndBits : Prop :=
  ∀ (v : Byte) (k : Nat), k < 8 →
    (rotr8 v k).toNat = (v.toNat >>> k) ||| ((v.toNat <<< (8 - k)) &&& 0xFF) ∧
    (∀ n < 8, (rotr8 v k).getLsbD n = v.getLsbD ((n + k) % 8)) ∧
    rotr8 v 0 = v

/-- Two rotates of one register, by a count `k` and then by a count `(8 - k) mod 8` (both mod 8, held in other registers), restore its value and leave
every other cell as it was (R92, S5). -/
def Obligations.SecondRotateUndoesTheFirst : Prop :=
  ∀ (s : State) (r x y : Digit), HasReg s r → HasReg s x → HasReg s y → y ≠ r →
    (s.regs.read y.toNat).toNat % 8 = (8 - (s.regs.read x.toNat).toNat % 8) % 8 →
    ∃ t u, exec (.ror r x) s = .next t ∧ exec (.ror r y) t = .next u ∧ u.regs.read r.toNat = s.regs.read r.toNat ∧
      SameRegistersBut r s u ∧ SameMemory s u

/-! ## Control and unknown opcodes (spec/43_control.md, spec/60_exceptions.md) -/

/-- JEQ: the counter becomes the literal target, unchecked, exactly when the register equals `r0` (an unset cell reads 0); otherwise it keeps the
advance; nothing else changes (R93). -/
def Obligations.JeqJumpsExactlyWhenEqual : Prop :=
  ∀ (s : State) (r : Digit) (target : Byte), HasReg s r →
    ∃ t, exec (.jeq r target) s = .next t ∧ t.report = some .ok ∧
      t.pc.toNat = (if s.regs.read r.toNat = s.regs.read 0 then target.toNat else s.pc.toNat) ∧
      SameRegisters s t ∧ SameMemory s t ∧ t.params = s.params ∧ t.halted = s.halted ∧ t.ir = s.ir

/-- HALT: `halted` becomes 1, on every state; the counter keeps the advance; nothing else changes (R94). -/
def Obligations.HaltSetsHalted : Prop :=
  ∀ s : State, ∃ t, exec .halt s = .next t ∧ t.report = some .ok ∧ t.halted = true ∧
    SameRegisters s t ∧ SameMemory s t ∧ t.params = s.params ∧ t.pc = s.pc ∧ t.ir = s.ir

/-- The unknown opcodes: the report carries the opcode digit and the word, and nothing else changes, on every state (R54, R98). -/
def Obligations.UnknownOpcodesOnlyReport : Prop :=
  ∀ (s : State) (rest : BitVec 12),
    ∀ p ∈ [(Instr.unknown0 rest, 0x0#4), (Instr.unknownD rest, 0xD#4), (Instr.unknownE rest, 0xE#4), (Instr.unknownF rest, 0xF#4)],
      ∃ t, exec p.1 s = .next t ∧ t.report = some (.unknownOpcode p.2 (p.2 ++ rest)) ∧
        encode p.1 = p.2 ++ rest ∧ SameRegisters s t ∧ SameMemory s t ∧ SameControl s t

/-- Validation: each operation's operands are checked in the order of the table of R68, the first that fails is reported as `(space, operand letter, value)`,
and nothing is written; HALT has no operand to fail. -/
def Obligations.FirstBadOperandIsReported : Prop :=
  ∀ (s : State) (r a b : Digit) (xy : Byte),
    let fails := fun (i : Instr) (space : Space) (l : Letter) (v : Byte) => exec i s = .next (answer s (.addressError ⟨space, l, v⟩))
    (∀ i ∈ [Instr.ld r xy, Instr.st r xy],
      (¬ HasReg s r → fails i .register .R (r.setWidth 8)) ∧
      (HasReg s r → ¬ HasMem s xy → fails i .memory .XY xy)) ∧
    (∀ i ∈ [Instr.ldi r xy, Instr.jeq r xy], ¬ HasReg s r → fails i .register .R (r.setWidth 8)) ∧
    (¬ HasReg s r → fails (.mov r a) .register .R (r.setWidth 8)) ∧
    (HasReg s r → ¬ HasReg s a → fails (.mov r a) .register .S (a.setWidth 8)) ∧
    (∀ i ∈ [Instr.add r a b, Instr.add6 r a b, Instr.or r a b, Instr.and r a b, Instr.xor r a b],
      (¬ HasReg s r → fails i .register .R (r.setWidth 8)) ∧
      (HasReg s r → ¬ HasReg s a → fails i .register .S (a.setWidth 8)) ∧
      (HasReg s r → HasReg s a → ¬ HasReg s b → fails i .register .T (b.setWidth 8))) ∧
    (¬ HasReg s r → fails (.ror r a) .register .R (r.setWidth 8)) ∧
    (HasReg s r → ¬ HasReg s a → fails (.ror r a) .register .X (a.setWidth 8)) ∧
    (∃ t, exec .halt s = .next t ∧ t.report = some .ok)

/-! ## Storage ports and the host (spec/20_memory.md, spec/40_cycle_and_dispatch.md section 5) -/

/-- The ports of both banks: a written cell is set and reads the value, every other cell is as before, the other bank is untouched, and an unset cell reads 0
(R14, R27, R29, R30). -/
def Obligations.WrittenCellReadsBack : Prop :=
  ∀ (s : State) (r : Digit) (a : Nat) (v : Byte),
    (readMem (writeMem s a v) a = v ∧ (writeMem s a v).mem.cell a = some v ∧ SameMemoryBut a s (writeMem s a v) ∧
      SameRegisters s (writeMem s a v)) ∧
    (readReg (writeReg s r v) r = v ∧ (writeReg s r v).regs.cell r.toNat = some v ∧ SameRegistersBut r s (writeReg s r v) ∧
      SameMemory s (writeReg s r v)) ∧
    (s.mem.cell a = none → readMem s a = 0x00#8) ∧ (s.regs.cell r.toNat = none → readReg s r = 0x00#8)

/-- `write_memory`: FormatError if any value fails, else AddressError if any address is not below N, and then nothing is written; else every cell of the run is
set to its value and nothing else changes (R42). -/
def Obligations.WriteMemoryIsAllOrNothing : Prop :=
  ∀ (s : State) (a : Nat) (first : HostValue) (more : List HostValue),
    (∀ v ∈ first :: more, parseValue v = none → writeMemory s a first more = (.formatError, s)) ∧
    ((∀ v ∈ first :: more, parseValue v ≠ none) → s.params.memSize < a + (more.length + 1) →
      writeMemory s a first more = (.addressError, s)) ∧
    ((∀ v ∈ first :: more, parseValue v ≠ none) → a + (more.length + 1) ≤ s.params.memSize →
      ∃ t, writeMemory s a first more = (.ok, t) ∧
        (∀ n (h : n < (first :: more).length), t.mem.cell (a + n) = parseValue ((first :: more)[n])) ∧
        (∀ b, b < a ∨ a + (more.length + 1) ≤ b → t.mem.cell b = s.mem.cell b) ∧
        SameRegisters s t ∧ SameControl s t ∧ t.report = s.report)

/-- `write_register`: the same on the register bank, each index checked against M (R43). -/
def Obligations.WriteRegisterIsAllOrNothing : Prop :=
  ∀ (s : State) (a : Nat) (first : HostValue) (more : List HostValue),
    (∀ v ∈ first :: more, parseValue v = none → writeRegister s a first more = (.formatError, s)) ∧
    ((∀ v ∈ first :: more, parseValue v ≠ none) → s.params.regCount < a + (more.length + 1) →
      writeRegister s a first more = (.addressError, s)) ∧
    ((∀ v ∈ first :: more, parseValue v ≠ none) → a + (more.length + 1) ≤ s.params.regCount →
      ∃ t, writeRegister s a first more = (.ok, t) ∧
        (∀ n (h : n < (first :: more).length), t.regs.cell (a + n) = parseValue ((first :: more)[n])) ∧
        (∀ b, b < a ∨ a + (more.length + 1) ≤ b → t.regs.cell b = s.regs.cell b) ∧
        SameMemory s t ∧ SameControl s t ∧ t.report = s.report)

/-- A host value is a byte exactly when it is one or two characters, each a hexadecimal digit, read high digit first, or an integer 0 to 255 (R44). The two forms of a
value are the model's (log entry 11). -/
def Obligations.HostValuesAreHexBytesOrNumbers : Prop :=
  (∀ (chars : List Char) (b : Byte), parseValue (.text chars) = some b ↔
    (∃ c v, chars = [c] ∧ hexDigitValue c = some v ∧ b.toNat = v) ∨
    (∃ c d hi lo, chars = [c, d] ∧ hexDigitValue c = some hi ∧ hexDigitValue d = some lo ∧ b.toNat = 16 * hi + lo)) ∧
  (∀ (n : Int) (b : Byte), parseValue (.number n) = some b ↔ n = b.toNat) ∧
  (∀ (c : Char) (v : Nat), hexDigitValue c = some v ↔
    lowerHexDigits[v]? = some c ∨ upperHexDigits[v]? = some c)

/-- A cell's rendering: two lowercase digits that read back as its value when it is set, `__` when it is unset, AddressError beyond the bank; the accessors show its
id, set flag and value (R13, R45, R46). -/
def Obligations.RenderingReadsBack : Prop :=
  ∀ (s : State) (space : Space) (a : Nat),
    (a < bankSize s space → ∀ v, (bankOf s space).cell a = some v →
      ∃ c d, render space s a = .ok [c, d] ∧ c ∈ lowerHexDigits ∧ d ∈ lowerHexDigits ∧
        parseValue (.text [c, d]) = some v ∧ inspect space s a = .ok ⟨a, true, v, [c, d]⟩) ∧
    (a < bankSize s space → (bankOf s space).cell a = none →
      render space s a = .ok ['_', '_'] ∧ inspect space s a = .ok ⟨a, false, 0x00#8, ['_', '_']⟩) ∧
    (bankSize s space ≤ a → render space s a = .error .addressError ∧ inspect space s a = .error .addressError)

/-- `set_instruction_counter(a)`: `pc` becomes `a` for `a < N` and nothing else changes, `halted` among it; otherwise AddressError and no change (R70). -/
def Obligations.SetInstructionCounterMovesOnlyTheCounter : Prop :=
  ∀ (s : State) (a : Nat), s.params.legal = true →
    (a < s.params.memSize → ∃ t, setInstructionCounter s a = (.ok, t) ∧ t.pc.toNat = a ∧ t = { s with pc := t.pc } ∧ t.halted = s.halted) ∧
    (s.params.memSize ≤ a → setInstructionCounter s a = (.addressError, s))

/-- `clear_halted()` sets `halted` to 0 and nothing else; no step, no run and no other request takes a machine out of HALTED
(R71). -/
def Obligations.ClearHaltedIsTheOnlyWayOut : Prop :=
  ∀ s : State,
    (∃ t, clearHalted s = (.ok, t) ∧ t = { s with halted := false }) ∧
    (s.halted = true → ∀ t, step s = .next t ∨ AfterHostWrite s t ∨ (∃ a, t = (setInstructionCounter s a).2) → t.halted = true) ∧
    (s.halted = true → ∀ k rs, runFor k (runStart s) = .next rs → rs.machine.halted = true)

/-- `halted` is set by the halt operation alone, and cleared by the caller alone; while it is 1 no cycle executes; an AddressError, an unknown opcode and
EndOfProgram leave it unchanged (R21). -/
def Obligations.HaltedIsSetOnlyByHalt : Prop :=
  ∀ s t : State,
    (step s = .next t → s.halted = false → t.halted = true → gate s = none ∧ decode (fetchWord s) = .halt) ∧
    (AfterHostWrite s t ∨ (∃ a, t = (setInstructionCounter s a).2) → t.halted = s.halted) ∧
    (step s = .next t → s.halted = true → t = answer s .notRunHalted) ∧
    (step s = .next t → t.faulted = true ∨ (∃ op w, t.report = some (.unknownOpcode op w)) ∨ t.report = some .endOfProgram →
      t.halted = s.halted) ∧
    (clearHalted s).2.halted = false

/-- A store is read by the next fetch of the stored cell, as its high or its low byte, even when it is the very next instruction (R40, R115). -/
def Obligations.StoredByteIsFetched : Prop :=
  ∀ (s t : State) (r : Digit) (a : Byte) (p : Counter), HasReg s r → HasMem s a → exec (.st r a) s = .next t →
    (p.toNat = a.toNat → highByte (fetchWord (setPc t p)) = readReg s r) ∧
    (p.toNat + 1 = a.toNat → lowByte (fetchWord (setPc t p)) = readReg s r) ∧
    (t.pc.toNat = a.toNat → highByte (fetchWord t) = readReg s r) ∧
    (t.pc.toNat + 1 = a.toNat → lowByte (fetchWord t) = readReg s r)

/-! ## Construction and the whole machine -/

/-- `new_machine`: inside the bounds of R111 a machine with every cell of both banks unset, the ids the addresses, `pc = PC_INIT` and `halted = 0`; outside them no
machine (R111). -/
def Obligations.ConstructionIsBoundedAndUnset : Prop :=
  ∀ p : Params,
    let legal := 1 ≤ p.memSize ∧ p.memSize ≤ 256 ∧ 1 ≤ p.regCount ∧ p.regCount ≤ 16 ∧ p.pcInit < p.memSize
    (legal → ∃ s, newMachine p = .ok s ∧ s.params = p ∧ s.pc.toNat = p.pcInit ∧ s.halted = false ∧
      (∀ a < p.memSize, inspect .memory s a = .ok ⟨a, false, 0x00#8, ['_', '_']⟩) ∧
      (∀ i < p.regCount, inspect .register s i = .ok ⟨i, false, 0x00#8, ['_', '_']⟩) ∧
      (∀ a, p.memSize ≤ a → inspect .memory s a = .error .addressError) ∧
      (∀ i, p.regCount ≤ i → inspect .register s i = .error .addressError)) ∧
    (¬ legal → newMachine p = .error .constructionRejected)

/-- Reset is the construction of one machine, and leaves what R26 says: every cell unset and reading 0, `pc = PC_INIT`, `halted = 0`. That N = 256, M = 16, PC_INIT = 0,
`ir = 0` and no report are the model's choices (log entries 1, 2, 6). -/
def Obligations.ResetIsAConstruction : Prop :=
  newMachine Params.standard = .ok State.reset ∧
  (∀ a, State.reset.mem.cell a = none ∧ readMem State.reset a = 0x00#8) ∧
  (∀ r : Digit, State.reset.regs.cell r.toNat = none ∧ readReg State.reset r = 0x00#8) ∧
  State.reset.pc.toNat = State.reset.params.pcInit ∧ State.reset.halted = false ∧
  State.reset.params.memSize = 256 ∧ State.reset.params.regCount = 16 ∧ State.reset.params.pcInit = 0 ∧
  State.reset.ir = 0x0000#16 ∧ State.reset.report = none

/-- Every machine that construction gives meets the invariant, and State.reset does (R19, R26, R111). -/
def Obligations.ConstructionMeetsTheInvariant : Prop :=
  State.reset.inv = true ∧ ∀ p s, newMachine p = .ok s → s.inv = true

/-- Every step keeps the invariant: legal parameters, both banks in canonical form with every set cell inside its bank, the counter in 0 to 256 (R13, R19, R28, R111). -/
def Obligations.EveryStepKeepsTheInvariant : Prop :=
  ∀ s t : State, s.inv = true → step s = .next t → t.inv = true

/-- Every host request keeps the invariant (R19, R28, R42, R43, R70, R71). -/
def Obligations.HostRequestsKeepTheInvariant : Prop :=
  ∀ s t : State, s.inv = true →
    AfterHostWrite s t ∨ (∃ a, t = (setInstructionCounter s a).2) ∨ t = (clearHalted s).2 → t.inv = true

/-- No step and no host request makes a set cell unset (R14). -/
def Obligations.SetCellsStaySet : Prop :=
  ∀ s t : State, step s = .next t ∨ AfterHostWrite s t ∨ (∃ a, t = (setInstructionCounter s a).2) ∨ t = (clearHalted s).2 →
    (∀ a, (s.mem.cell a).isSome = true → (t.mem.cell a).isSome = true) ∧
    (∀ j, (s.regs.cell j).isSome = true → (t.regs.cell j).isSome = true)

/-- The construction parameters never change (R12). -/
def Obligations.ParametersNeverChange : Prop :=
  ∀ s t : State, step s = .next t ∨ AfterHostWrite s t ∨ (∃ a, t = (setInstructionCounter s a).2) ∨ t = (clearHalted s).2 →
    t.params = s.params

/-- In an executed cycle `pc` moves by the advance, or to the target of a JEQ whose register equals `r0`; in a request that executes no cycle it stays (R65, R93, R95). -/
def Obligations.CounterMovesByAdvanceOrJump : Prop :=
  ∀ s t : State, step s = .next t →
    (gate s = none → t.pc = s.pc + 2#9 ∨
      ∃ r target, decode (fetchWord s) = .jeq r target ∧ readReg s r = readReg s 0x0#4 ∧ t.pc.toNat = target.toNat) ∧
    (gate s ≠ none → t.pc = s.pc)

/-- A step writes at most one cell: a memory cell only at the address of an executed ST, a register only at the destination its operation has in the table of R17,
and never both (R12, R17, R117). -/
def Obligations.StepWritesOnlyTheDestination : Prop :=
  ∀ s t : State, step s = .next t →
    (∀ a, t.mem.cell a ≠ s.mem.cell a →
      gate s = none ∧ SameRegisters s t ∧ ∃ addr, writtenCell (decode (fetchWord s)) = some addr ∧ a = addr.toNat) ∧
    (∀ j, t.regs.cell j ≠ s.regs.cell j →
      gate s = none ∧ SameMemory s t ∧ ∃ d, writtenRegister (decode (fetchWord s)) = some d ∧ j = d.toNat)

/-- Neither what `ir` holds between cycles nor what the last request reported has an effect: an executed cycle gives the same state, and a request that executes
none gives the same state but for `ir` (R25; `report` is the model's field, log entry 2). -/
def Obligations.HiddenRegisterHasNoEffect : Prop :=
  ∀ (s : State) (w : Word) (o : Option CycleOutcome),
    (gate s = none → step { s with ir := w, report := o } = step s) ∧
    (∀ t, step s = .next t → ∃ t', step { s with ir := w, report := o } = .next t' ∧ { t' with ir := t.ir } = t)

/-! ## Runs (spec/40_cycle_and_dispatch.md rules R73 to R76) -/

/-- With a budget of `b` cycles a run returns within `b + 1` passes of its loop, and has executed at most `b` cycles (R73, R75). -/
def Obligations.BudgetedRunReturns : Prop :=
  ∀ (s : State) (b : Nat), s.params.legal = true → s.params.runBudget = some b →
    ∃ rs, runFor (b + 1) (runStart s) = .next rs ∧ rs.stop.isSome = true ∧ rs.count ≤ b

/-- What a returned run says of its machine: each stop reason goes with the state R76 gives it, GUARD_STOP comes only under `THREE_AHEAD`, and BUDGET_EXHAUSTED only
with a budget and exactly at it (R73 to R76). -/
def Obligations.StopReasonDescribesTheMachine : Prop :=
  ∀ (s : State) (rs : RunState), RunReturns s rs →
    let m := rs.machine
    (rs.stop = some .halted → m.halted = true ∧ rs.last = some .ok ∧ 0 < rs.count) ∧
    (rs.stop = some .endOfProgram → m.halted = false ∧ ¬ m.pc.toNat + 1 < m.params.memSize) ∧
    (rs.stop = some .addressError → m.halted = false ∧ m.faulted = true ∧ 0 < rs.count) ∧
    (rs.stop = some .notRunHalted → m.halted = true ∧ rs.count = 0) ∧
    (rs.stop = some .guardStop → m.params.runContinue = .threeAhead ∧ m.halted = false ∧
      m.pc.toNat + 1 < m.params.memSize ∧ ¬ m.pc.toNat + 3 < m.params.memSize) ∧
    (rs.stop = some .budgetExhausted → m.params.runBudget = some rs.count)

/-- An unknown opcode does not stop a run: within the budget and the guard the run goes on, and its history gains the report (R73, R98, R110). That the
history is a list, here `events`, with the oldest report first and a new one at its end is the model's choice, log entry 10 (DESIGN CHOICE): R110 says the event is recorded in
the run's history and gives the history no form. -/
def Obligations.UnknownOpcodeDoesNotStopARun : Prop :=
  ∀ (rs : RunState) (t : State) (op : Digit) (w : Word), rs.stop = none → rs.machine.params.runBudget ≠ some rs.count →
    step rs.machine = .next t → t.report = some (.unknownOpcode op w) → runContinue t = true →
    runPass rs = .next { machine := t, count := rs.count + 1, last := some (.unknownOpcode op w),
                         events := rs.events ++ [.unknownOpcode op w], stop := none }

/-- Under `FETCHABLE` a run that goes on after a cycle is one whose next cycle executes: its guard repeats the fetch check (R63, R74). -/
def Obligations.FetchableGuardRepeatsTheFetchCheck : Prop :=
  ∀ (rs rs' : RunState), rs.machine.params.runContinue = .fetchable → rs.stop = none → rs.machine.params.runBudget ≠ some rs.count →
    runPass rs = .next rs' →
    (rs'.stop = none → gate rs'.machine = none) ∧ rs'.stop ≠ some .guardStop

/-- A JEQ to its own address whose register equals `r0` loops forever: without a budget, and where the guard holds, the run never returns (R75, R93). -/
def Obligations.TakenSelfJumpRunsForever : Prop :=
  ∀ (s : State) (r : Digit) (target : Byte), s.params.legal = true → s.halted = false → s.pc.toNat + 1 < s.params.memSize →
    decode (fetchWord s) = .jeq r target → HasReg s r → readReg s r = readReg s 0x0#4 → target.toNat = s.pc.toNat →
    runContinue s = true → s.params.runBudget = none → RunHangs s
end

