-- ==== Sys2Proof/Laws/Alu.lean ====
section
/-! SUPPORT. Bounds and readings of the ALU's functions (spec/42_alu.md rules R81, R82, R92). -/

namespace Sys2Proof.Machine

/-- The signed reading of a byte lies in -128 to 127 (R81). -/
theorem signed8_bounds (v : Byte) : -128 ≤ signed8 v ∧ signed8 v ≤ 127 := by
  have := v.isLt
  unfold signed8
  split <;> omega

/-- The signed reading is the byte's value, less 256 when its top bit is set. -/
theorem signed8_mod (v : Byte) : signed8 v % 256 = v.toNat := by
  have := v.isLt
  unfold signed8
  split <;> omega

/-- The raw sum lies in -256 to 254 (R82). -/
theorem rawSum_bounds (s t : Byte) : -256 ≤ rawSum s t ∧ rawSum s t ≤ 254 := by
  have hs := signed8_bounds s
  have ht := signed8_bounds t
  unfold rawSum
  omega

theorem rawSum_comm (s t : Byte) : rawSum s t = rawSum t s := by
  unfold rawSum
  omega

/-- A sum of magnitude up to 127 is not corrected (R82). -/
theorem correctedSum_small (mode : AddOverflow) {r : Int} (h : -127 ≤ r ∧ r ≤ 127) : correctedSum mode r = r := by
  unfold correctedSum
  rw [if_neg (by omega)]

/-- A sum of magnitude above 127 goes through `ADD_OVERFLOW` (R82, R83). -/
theorem correctedSum_large (mode : AddOverflow) {r : Int} (h : r < -127 ∨ 127 < r) :
    correctedSum mode r = addOverflow mode r := by
  unfold correctedSum
  rw [if_pos (by omega)]

/-- The rotate count is 0 to 7 (R92). -/
theorem rotateCount_lt (x : Byte) : rotateCount x < 8 := Nat.mod_lt _ (by decide)

end Sys2Proof.Machine
end

