-- ==== Sys2Proof/Laws/Bank.lean ====
section
/-! SUPPORT. The laws of a storage bank (spec/20_memory.md rules R28 to R30): read after write, and that a write keeps the canonical form. -/

namespace Sys2Proof.Machine

@[simp] theorem Bank.cell_nil (a : Nat) : Bank.cell [] a = none := rfl

@[simp] theorem Bank.read_nil (a : Nat) : Bank.read [] a = 0x00#8 := rfl

/-- The written cell is set and holds the value (R30). -/
@[simp] theorem Bank.cell_write_self (b : Bank) (a : Nat) (v : Byte) : (b.write a v).cell a = some v := by
  induction b with
  | nil => simp [Bank.write, Bank.cell]
  | cons e rest ih =>
    obtain ⟨k, x⟩ := e
    by_cases lt : a < k
    · simp [Bank.write, Bank.cell, lt]
    · by_cases eq : a = k
      · simp [Bank.write, Bank.cell, eq]
      · simp [Bank.write, Bank.cell, lt, eq, ih]

/-- A write leaves every other cell alone (R30). -/
@[simp] theorem Bank.cell_write_of_ne (b : Bank) {a c : Nat} (v : Byte) (ne : c ≠ a) : (b.write a v).cell c = b.cell c := by
  induction b with
  | nil => simp [Bank.write, Bank.cell, ne]
  | cons e rest ih =>
    obtain ⟨k, x⟩ := e
    by_cases lt : a < k
    · simp [Bank.write, Bank.cell, lt, ne]
    · by_cases eq : a = k
      · subst eq; simp [Bank.write, Bank.cell, ne]
      · simp [Bank.write, Bank.cell, lt, eq, ih]

@[simp] theorem Bank.read_write_self (b : Bank) (a : Nat) (v : Byte) : (b.write a v).read a = v := by
  simp [Bank.read]

@[simp] theorem Bank.read_write_of_ne (b : Bank) {a c : Nat} (v : Byte) (ne : c ≠ a) : (b.write a v).read c = b.read c := by
  simp [Bank.read, ne]

theorem Bank.risesFrom_mono {size lo lo' : Nat} (le : lo' ≤ lo) {b : Bank} (h : b.risesFrom size lo = true) :
    b.risesFrom size lo' = true := by
  cases b with
  | nil => rfl
  | cons e rest => simp [Bank.risesFrom] at h ⊢; exact ⟨⟨by omega, h.1.2⟩, h.2⟩

theorem Bank.risesFrom_write {size lo a : Nat} (b : Bank) (v : Byte) (loLe : lo ≤ a) (lt : a < size)
    (h : b.risesFrom size lo = true) : (b.write a v).risesFrom size lo = true := by
  induction b generalizing lo with
  | nil => simp [Bank.write, Bank.risesFrom, loLe, lt]
  | cons e rest ih =>
    obtain ⟨k, x⟩ := e
    simp [Bank.risesFrom] at h
    by_cases below : a < k
    · simp [Bank.write, below, Bank.risesFrom, loLe, lt, h, Nat.succ_le_of_lt below]
    · by_cases eq : a = k
      · subst eq; simp [Bank.write, Bank.risesFrom, h]
      · simp [Bank.write, below, eq, Bank.risesFrom, h]
        exact ih (by omega) h.2

/-- A write inside the bank keeps its canonical form. -/
theorem Bank.wf_write {size a : Nat} {b : Bank} (v : Byte) (lt : a < size) (h : b.wf size = true) :
    (b.write a v).wf size = true :=
  Bank.risesFrom_write b v (Nat.zero_le a) lt h

/-- A run inside the bank keeps its canonical form. -/
theorem Bank.wf_writeRun {size : Nat} (vs : List Byte) :
    ∀ {a : Nat} {b : Bank}, a + vs.length ≤ size → b.wf size = true → (b.writeRun a vs).wf size = true := by
  induction vs with
  | nil => intro a b _ h; exact h
  | cons v vs ih =>
    intro a b le h
    simp only [List.length_cons] at le
    exact ih (by omega) (Bank.wf_write v (by omega) h)

/-- An empty bank is in canonical form: reset's banks are. -/
theorem Bank.wf_nil (size : Nat) : Bank.wf size [] = true := rfl

theorem Bank.cell_lt_of_risesFrom {size lo a : Nat} {v : Byte} (b : Bank) (h : b.risesFrom size lo = true)
    (set : b.cell a = some v) : a < size := by
  induction b generalizing lo with
  | nil => simp at set
  | cons e rest ih =>
    obtain ⟨k, x⟩ := e
    simp [Bank.risesFrom] at h
    by_cases eq : a = k
    · omega
    · simp [Bank.cell, eq] at set
      exact ih h.2 set

/-- A set cell of a canonical bank is one the address decoder selects (R28). -/
theorem Bank.cell_lt_of_wf {size a : Nat} {v : Byte} {b : Bank} (h : b.wf size = true) (set : b.cell a = some v) : a < size :=
  Bank.cell_lt_of_risesFrom b h set

end Sys2Proof.Machine
end

