-- ==== Sys2Proof/Laws/Decode.lean ====
section
/-! SUPPORT. The fields of a word built from digits (spec/30_encoding.md rule R48). -/

namespace Sys2Proof

@[simp] theorem opField_append (a b c d : Digit) : opField (a ++ b ++ c ++ d : Word) = a := by
  ext i hi; simp [opField]; grind

@[simp] theorem d1Field_append (a b c d : Digit) : d1Field (a ++ b ++ c ++ d : Word) = b := by
  ext i hi; simp [d1Field]; grind

@[simp] theorem d2Field_append (a b c d : Digit) : d2Field (a ++ b ++ c ++ d : Word) = c := by
  ext i hi; simp [d2Field]; grind

@[simp] theorem d3Field_append (a b c d : Digit) : d3Field (a ++ b ++ c ++ d : Word) = d := by
  ext i hi; simp [d3Field]; grind

/-- Decoding the two cells of a word is decoding the word (R47). -/
theorem decodeBytes_pair (hi lo : Byte) (rest : List Byte) :
    decodeBytes (hi :: lo :: rest) = .ok (decode (wordOfBytes hi lo), rest) := rfl

end Sys2Proof
end

