-- ==== Sys2Proof/Laws/State.lean ====
section
/-! SUPPORT. What each state update does to each field, once, so that no proof unfolds a record update. -/

namespace Sys2Proof.Machine

@[simp] theorem writeReg_params (s : State) (r : Digit) (v : Byte) : (writeReg s r v).params = s.params := rfl
@[simp] theorem writeReg_mem (s : State) (r : Digit) (v : Byte) : (writeReg s r v).mem = s.mem := rfl
@[simp] theorem writeReg_regs (s : State) (r : Digit) (v : Byte) : (writeReg s r v).regs = s.regs.write r.toNat v := rfl
@[simp] theorem writeReg_pc (s : State) (r : Digit) (v : Byte) : (writeReg s r v).pc = s.pc := rfl
@[simp] theorem writeReg_halted (s : State) (r : Digit) (v : Byte) : (writeReg s r v).halted = s.halted := rfl
@[simp] theorem writeReg_ir (s : State) (r : Digit) (v : Byte) : (writeReg s r v).ir = s.ir := rfl
@[simp] theorem writeReg_report (s : State) (r : Digit) (v : Byte) : (writeReg s r v).report = s.report := rfl

@[simp] theorem writeMem_params (s : State) (a : Nat) (v : Byte) : (writeMem s a v).params = s.params := rfl
@[simp] theorem writeMem_mem (s : State) (a : Nat) (v : Byte) : (writeMem s a v).mem = s.mem.write a v := rfl
@[simp] theorem writeMem_regs (s : State) (a : Nat) (v : Byte) : (writeMem s a v).regs = s.regs := rfl
@[simp] theorem writeMem_pc (s : State) (a : Nat) (v : Byte) : (writeMem s a v).pc = s.pc := rfl
@[simp] theorem writeMem_halted (s : State) (a : Nat) (v : Byte) : (writeMem s a v).halted = s.halted := rfl
@[simp] theorem writeMem_ir (s : State) (a : Nat) (v : Byte) : (writeMem s a v).ir = s.ir := rfl
@[simp] theorem writeMem_report (s : State) (a : Nat) (v : Byte) : (writeMem s a v).report = s.report := rfl

@[simp] theorem setPc_params (s : State) (t : Counter) : (setPc s t).params = s.params := rfl
@[simp] theorem setPc_mem (s : State) (t : Counter) : (setPc s t).mem = s.mem := rfl
@[simp] theorem setPc_regs (s : State) (t : Counter) : (setPc s t).regs = s.regs := rfl
@[simp] theorem setPc_pc (s : State) (t : Counter) : (setPc s t).pc = t := rfl
@[simp] theorem setPc_halted (s : State) (t : Counter) : (setPc s t).halted = s.halted := rfl
@[simp] theorem setPc_ir (s : State) (t : Counter) : (setPc s t).ir = s.ir := rfl
@[simp] theorem setPc_report (s : State) (t : Counter) : (setPc s t).report = s.report := rfl

@[simp] theorem answer_params (s : State) (o : CycleOutcome) : (answer s o).params = s.params := rfl
@[simp] theorem answer_mem (s : State) (o : CycleOutcome) : (answer s o).mem = s.mem := rfl
@[simp] theorem answer_regs (s : State) (o : CycleOutcome) : (answer s o).regs = s.regs := rfl
@[simp] theorem answer_pc (s : State) (o : CycleOutcome) : (answer s o).pc = s.pc := rfl
@[simp] theorem answer_halted (s : State) (o : CycleOutcome) : (answer s o).halted = s.halted := rfl
@[simp] theorem answer_ir (s : State) (o : CycleOutcome) : (answer s o).ir = s.ir := rfl
@[simp] theorem answer_report (s : State) (o : CycleOutcome) : (answer s o).report = some o := rfl

@[simp] theorem fetched_params (s : State) : (fetched s).params = s.params := rfl
@[simp] theorem fetched_mem (s : State) : (fetched s).mem = s.mem := rfl
@[simp] theorem fetched_regs (s : State) : (fetched s).regs = s.regs := rfl
@[simp] theorem fetched_pc (s : State) : (fetched s).pc = s.pc + 2#9 := rfl
@[simp] theorem fetched_halted (s : State) : (fetched s).halted = s.halted := rfl
@[simp] theorem fetched_ir (s : State) : (fetched s).ir = fetchWord s := rfl
@[simp] theorem fetched_report (s : State) : (fetched s).report = s.report := rfl

@[simp] theorem setHalted_params (s : State) : (setHalted s).params = s.params := rfl
@[simp] theorem setHalted_mem (s : State) : (setHalted s).mem = s.mem := rfl
@[simp] theorem setHalted_regs (s : State) : (setHalted s).regs = s.regs := rfl
@[simp] theorem setHalted_pc (s : State) : (setHalted s).pc = s.pc := rfl
@[simp] theorem setHalted_halted (s : State) : (setHalted s).halted = true := rfl
@[simp] theorem setHalted_ir (s : State) : (setHalted s).ir = s.ir := rfl
@[simp] theorem setHalted_report (s : State) : (setHalted s).report = s.report := rfl

@[simp] theorem resetHalted_params (s : State) : (resetHalted s).params = s.params := rfl
@[simp] theorem resetHalted_mem (s : State) : (resetHalted s).mem = s.mem := rfl
@[simp] theorem resetHalted_regs (s : State) : (resetHalted s).regs = s.regs := rfl
@[simp] theorem resetHalted_pc (s : State) : (resetHalted s).pc = s.pc := rfl
@[simp] theorem resetHalted_halted (s : State) : (resetHalted s).halted = false := rfl
@[simp] theorem resetHalted_ir (s : State) : (resetHalted s).ir = s.ir := rfl
@[simp] theorem resetHalted_report (s : State) : (resetHalted s).report = s.report := rfl

end Sys2Proof.Machine
end

