-- ==== Sys2Proof/Laws/Ops.lean ====
section
/-! SUPPORT. What each shared operation can do, once (spec/40_cycle_and_dispatch.md). -/

namespace Sys2Proof.Machine

@[simp] theorem registerOperand_value (l : Letter) (r : Digit) : (registerOperand l r).value.toNat = r.toNat := by
  simp [registerOperand]; omega

/-- A register operand is valid when its index is below M (R66). -/
@[simp] theorem operandValid_register (s : State) (l : Letter) (r : Digit) :
    operandValid s (registerOperand l r) = decide (r.toNat < s.params.regCount) := by
  simp only [operandValid, registerOperand_value]; rfl

/-- A data address is valid when it is below N (R67). -/
@[simp] theorem operandValid_memory (s : State) (a : Byte) :
    operandValid s (memoryOperand a) = decide (a.toNat < s.params.memSize) := rfl

theorem firstInvalid_eq_none {s : State} {es : List Operand} :
    firstInvalid s es = none ↔ ∀ e ∈ es, operandValid s e = true := by
  induction es with
  | nil => simp [firstInvalid]
  | cons e rest ih =>
    by_cases valid : operandValid s e = true
    · simp [firstInvalid, valid, ih]
    · simp [firstInvalid, valid]

/-- The operand found is one that fails. -/
theorem firstInvalid_invalid {s : State} {e : Operand} {es : List Operand} (h : firstInvalid s es = some e) :
    e ∈ es ∧ operandValid s e = false := by
  induction es with
  | nil => simp [firstInvalid] at h
  | cons d rest ih =>
    by_cases valid : operandValid s d = true
    · simp only [firstInvalid, valid, if_true] at h
      exact ⟨List.mem_cons_of_mem d (ih h).1, (ih h).2⟩
    · simp only [firstInvalid, valid] at h
      cases h
      exact ⟨List.mem_cons_self, by simpa using valid⟩

/-- Everything `validated` can answer: AddressError on the first operand that fails, or the effect and OK when all are valid. -/
theorem validated_cases (s : State) (es : List Operand) (effect : State → State) :
    (∃ e, firstInvalid s es = some e ∧ validated s es effect = .next (answer s (.addressError e))) ∨
    (firstInvalid s es = none ∧ validated s es effect = .next (answer (effect s) .ok)) := by
  unfold validated
  cases h : firstInvalid s es with
  | none => exact .inr ⟨rfl, rfl⟩
  | some e => exact .inl ⟨e, rfl, rfl⟩

theorem validated_of_valid {s : State} {es : List Operand} (effect : State → State) (h : ∀ e ∈ es, operandValid s e = true) :
    validated s es effect = .next (answer (effect s) .ok) := by
  simp [validated, firstInvalid_eq_none.mpr h]

theorem validated_of_invalid {s : State} {e : Operand} {es : List Operand} (effect : State → State)
    (h : firstInvalid s es = some e) : validated s es effect = .next (answer s (.addressError e)) := by
  simp [validated, h, raiseAddressError]

/-- Everything the gate can say (R62, R63, R102). -/
theorem gate_cases (s : State) :
    (s.halted = true ∧ gate s = some .notRunHalted) ∨
    (s.halted = false ∧ ¬ s.pc.toNat + 1 < s.params.memSize ∧ gate s = some .endOfProgram) ∨
    (s.halted = false ∧ s.pc.toNat + 1 < s.params.memSize ∧ gate s = none) := by
  cases h : s.halted <;> by_cases f : s.pc.toNat + 1 < s.params.memSize <;> simp [gate, fetchable, h, f]

/-- Everything a step can be (R61): a fault on parameters no machine has, a request turned away, or the decoded instruction's `exec`. -/
theorem step_cases (s : State) :
    (s.params.legal = false ∧ step s = .fault .noSuchMachine) ∨
    (s.params.legal = true ∧ ∃ o, gate s = some o ∧ step s = .next (answer s o)) ∨
    (s.params.legal = true ∧ gate s = none ∧ step s = exec (decode (fetchWord s)) (fetched s)) := by
  unfold step
  cases legal : s.params.legal
  · exact .inl ⟨rfl, by simp⟩
  · cases g : gate s with
    | none => exact .inr (.inr ⟨rfl, rfl, by simp⟩)
    | some o => exact .inr (.inl ⟨rfl, o, rfl, by simp⟩)

end Sys2Proof.Machine
end

