-- ==== Sys2Proof/Laws/Exec.lean ====
section
/-! SUPPORT. The inversion of `exec`: everything an instruction can do, once, so that no claim over all instructions unfolds the meanings. -/

namespace Sys2Proof.Machine

/-- Everything an instruction can do (R68, R69, R97, R98): AddressError on an operand that does not exist; with all its operands there, one register written,
one memory cell written, the jump taken or not, or the halt; or an unknown opcode reported. -/
inductive Executes (i : Instr) (s : State) : State → Prop where
  | addressError (e : Operand) (bad : operandValid s e = false) (ill : i.wellFormed s.params = false) :
      Executes i s (answer s (.addressError e))
  | register (d : Digit) (v : Byte) (there : d.toNat < s.params.regCount) (dest : writtenRegister i = some d)
      (noStore : writtenCell i = none) (well : i.wellFormed s.params = true) : Executes i s (answer (writeReg s d v) .ok)
  | memory (a : Byte) (v : Byte) (there : a.toNat < s.params.memSize) (dest : writtenCell i = some a)
      (noLoad : writtenRegister i = none) (well : i.wellFormed s.params = true) : Executes i s (answer (writeMem s a.toNat v) .ok)
  | jump (r : Digit) (target : Byte) (isJeq : i = .jeq r target) (equal : readReg s r = readReg s 0x0#4)
      (well : i.wellFormed s.params = true) : Executes i s (answer (setPc s (target.setWidth 9)) .ok)
  | noJump (r : Digit) (target : Byte) (isJeq : i = .jeq r target) (differ : readReg s r ≠ readReg s 0x0#4)
      (well : i.wellFormed s.params = true) : Executes i s (answer s .ok)
  | halt (isHalt : i = .halt) : Executes i s (answer (setHalted s) .ok)
  | unknown (op : Digit) (rest : BitVec 12)
      (isUnknown : (i, op) ∈ [(Instr.unknown0 rest, 0x0#4), (.unknownD rest, 0xD#4), (.unknownE rest, 0xE#4), (.unknownF rest, 0xF#4)]) :
      Executes i s (answer s (.unknownOpcode op (op ++ rest)))

theorem executes_of_validated {i : Instr} {s : State} {es : List Operand} {effect : State → State}
    (well : i.wellFormed s.params = es.all (operandValid s))
    (done : (∀ e ∈ es, operandValid s e = true) → i.wellFormed s.params = true → Executes i s (answer (effect s) .ok)) :
    ∃ t, validated s es effect = .next t ∧ Executes i s t := by
  rcases validated_cases s es effect with ⟨e, found, eq⟩ | ⟨none, eq⟩
  · have bad := firstInvalid_invalid found
    refine ⟨_, eq, .addressError e bad.2 ?_⟩
    rw [well, List.all_eq_false]
    exact ⟨e, bad.1, by simp [bad.2]⟩
  · have valid := firstInvalid_eq_none.mp none
    exact ⟨_, eq, done valid (by rw [well, List.all_eq_true]; exact valid)⟩

theorem executes_aluRst {i : Instr} {s : State} (f : Byte → Byte → Byte) (r a b : Digit) (dest : writtenRegister i = some r)
    (noStore : writtenCell i = none)
    (well : i.wellFormed s.params = (s.params.hasRegister r && s.params.hasRegister a && s.params.hasRegister b)) :
    ∃ t, aluRst f r a b s = .next t ∧ Executes i s t := by
  refine executes_of_validated (by simp [well, Params.hasRegister, Bool.and_assoc]) fun valid w => .register r _ ?_ dest noStore w
  simpa using valid (registerOperand .R r) (by simp)

/-- Every instruction answers a next state, one that `Executes` lists. -/
theorem exec_executes (i : Instr) (s : State) : ∃ t, exec i s = .next t ∧ Executes i s t := by
  cases i with
  | ld r addr =>
    apply executes_of_validated
    · simp [Instr.wellFormed, Params.hasRegister, Params.hasCell]
    · intro valid w
      refine .register r _ ?_ rfl rfl w
      simpa using valid (registerOperand .R r) (by simp)
  | ldi r imm =>
    apply executes_of_validated
    · simp [Instr.wellFormed, Params.hasRegister]
    · intro valid w
      refine .register r _ ?_ rfl rfl w
      simpa using valid (registerOperand .R r) (by simp)
  | st r addr =>
    apply executes_of_validated
    · simp [Instr.wellFormed, Params.hasRegister, Params.hasCell]
    · intro valid w
      refine .memory addr _ ?_ rfl rfl w
      simpa using valid (memoryOperand addr) (by simp)
  | mov r d =>
    apply executes_of_validated
    · simp [Instr.wellFormed, Params.hasRegister]
    · intro valid w
      refine .register d _ ?_ rfl rfl w
      simpa using valid (registerOperand .S d) (by simp)
  | add r a b => exact executes_aluRst _ r a b rfl rfl rfl
  | add6 r a b => exact executes_aluRst _ r a b rfl rfl rfl
  | or r a b => exact executes_aluRst _ r a b rfl rfl rfl
  | and r a b => exact executes_aluRst _ r a b rfl rfl rfl
  | xor r a b => exact executes_aluRst _ r a b rfl rfl rfl
  | ror r x =>
    apply executes_of_validated
    · simp [Instr.wellFormed, Params.hasRegister]
    · intro valid w
      refine .register r _ ?_ rfl rfl w
      simpa using valid (registerOperand .R r) (by simp)
  | jeq r target =>
    apply executes_of_validated
    · simp [Instr.wellFormed, Params.hasRegister]
    · intro _ w
      by_cases equal : readReg s r = readReg s 0x0#4
      · simp only [if_pos equal]; exact .jump r target rfl equal w
      · simp only [if_neg equal]; exact .noJump r target rfl equal w
  | halt => exact ⟨_, rfl, .halt rfl⟩
  | unknown0 rest => exact ⟨_, rfl, .unknown 0x0#4 rest (by simp)⟩
  | unknownD rest => exact ⟨_, rfl, .unknown 0xD#4 rest (by simp)⟩
  | unknownE rest => exact ⟨_, rfl, .unknown 0xE#4 rest (by simp)⟩
  | unknownF rest => exact ⟨_, rfl, .unknown 0xF#4 rest (by simp)⟩

/-- The inversion: what `exec` answers is one of the cases. -/
theorem executes_of_exec {i : Instr} {s t : State} (h : exec i s = .next t) : Executes i s t := by
  obtain ⟨u, eq, done⟩ := exec_executes i s
  rw [eq] at h
  cases h
  exact done

/-- The inversion of a step that answers: a request turned away by a gate, or the decoded instruction executed on the fetched state. -/
theorem step_next {s t : State} (h : step s = .next t) :
    s.params.legal = true ∧
      ((∃ o, gate s = some o ∧ t = answer s o) ∨ (gate s = none ∧ Executes (decode (fetchWord s)) (fetched s) t)) := by
  rcases step_cases s with ⟨_, eq⟩ | ⟨legal, o, g, eq⟩ | ⟨legal, g, eq⟩
  · rw [eq] at h; cases h
  · rw [eq] at h; cases h; exact ⟨legal, .inl ⟨o, g, rfl⟩⟩
  · rw [eq] at h; exact ⟨legal, .inr ⟨g, executes_of_exec h⟩⟩

end Sys2Proof.Machine
end

