-- ==== Sys2Proof/Laws/PerInstr.lean ====
section
/-! SUPPORT. The per-instruction family: every instruction's canonical word lies in its row of spec/opcode_table.json. -/

namespace Sys2Proof.Laws.EncodeMatchesTable

/-- The "match" of the instruction's row in spec/opcode_table.json. -/
def rowMatch : Instr → Word
  | .ld _ _ => 0x1000#16
  | .ldi _ _ => 0x2000#16
  | .st _ _ => 0x3000#16
  | .mov _ _ => 0x4000#16
  | .add _ _ _ => 0x5000#16
  | .add6 _ _ _ => 0x6000#16
  | .or _ _ _ => 0x7000#16
  | .and _ _ _ => 0x8000#16
  | .xor _ _ _ => 0x9000#16
  | .ror _ _ => 0xA000#16
  | .jeq _ _ => 0xB000#16
  | .halt => 0xC000#16
  | .unknown0 _ => 0x0000#16
  | .unknownD _ => 0xD000#16
  | .unknownE _ => 0xE000#16
  | .unknownF _ => 0xF000#16

/-- The instruction's word, under the table's mask, is the row's match. -/
def Statement (i : Instr) : Prop := encode i &&& 0xF000#16 = rowMatch i

/-- A digit above twelve free bits: the mask keeps the digit alone. -/
theorem mask_append (op : Digit) (rest : BitVec 12) : (op ++ rest : Word) &&& 0xF000#16 = (op ++ 0#12 : Word) := by
  have mask : (0xF000#16 : Word) = (0xF#4 ++ 0#12 : Word) := rfl
  rw [mask, BitVec.and_append]
  congr 1
  · exact BitVec.and_allOnes
  · exact BitVec.and_zero

theorem mask_digits (op a b c : Digit) : (op ++ a ++ b ++ c : Word) &&& 0xF000#16 = (op ++ 0#12 : Word) := by
  have assoc : (op ++ a ++ b ++ c : Word) = (op ++ (a ++ b ++ c : BitVec 12) : Word) := by
    ext i hi; simp; grind
  rw [assoc, mask_append]

theorem mask_digit_byte (op a : Digit) (xy : Byte) : (op ++ a ++ xy : Word) &&& 0xF000#16 = (op ++ 0#12 : Word) := by
  have assoc : (op ++ a ++ xy : Word) = (op ++ (a ++ xy : BitVec 12) : Word) := by
    ext i hi; simp; grind
  rw [assoc, mask_append]

theorem ld (r : Digit) (addr : Byte) : Statement (.ld r addr) := mask_digit_byte 0x1#4 r addr

theorem ldi (r : Digit) (imm : Byte) : Statement (.ldi r imm) := mask_digit_byte 0x2#4 r imm

theorem st (r : Digit) (addr : Byte) : Statement (.st r addr) := mask_digit_byte 0x3#4 r addr

theorem mov (r s : Digit) : Statement (.mov r s) := mask_digits 0x4#4 0x0#4 r s

theorem add (r s t : Digit) : Statement (.add r s t) := mask_digits 0x5#4 r s t

theorem add6 (r s t : Digit) : Statement (.add6 r s t) := mask_digits 0x6#4 r s t

theorem or (r s t : Digit) : Statement (.or r s t) := mask_digits 0x7#4 r s t

theorem and (r s t : Digit) : Statement (.and r s t) := mask_digits 0x8#4 r s t

theorem xor (r s t : Digit) : Statement (.xor r s t) := mask_digits 0x9#4 r s t

theorem ror (r x : Digit) : Statement (.ror r x) := mask_digits 0xA#4 r 0x0#4 x

theorem jeq (r : Digit) (target : Byte) : Statement (.jeq r target) := mask_digit_byte 0xB#4 r target

theorem halt : Statement .halt := rfl

theorem unknown0 (rest : BitVec 12) : Statement (.unknown0 rest) := mask_append 0x0#4 rest

theorem unknownD (rest : BitVec 12) : Statement (.unknownD rest) := mask_append 0xD#4 rest

theorem unknownE (rest : BitVec 12) : Statement (.unknownE rest) := mask_append 0xE#4 rest

theorem unknownF (rest : BitVec 12) : Statement (.unknownF rest) := mask_append 0xF#4 rest

end Sys2Proof.Laws.EncodeMatchesTable
end

