-- ==== Sys2Proof/Laws/Run.lean ====
section
/-! SUPPORT. What one pass of a run can do (spec/40_cycle_and_dispatch.md rule R73). -/

namespace Sys2Proof.Machine

/-- A run that has returned makes no further pass. -/
theorem runPass_of_stopped {rs : RunState} (h : rs.stop.isSome = true) : runPass rs = .next rs := by
  simp [runPass, h]

/-- A run that has returned stays as it is, however many passes are asked for. -/
theorem runFor_of_stopped {rs : RunState} (h : rs.stop.isSome = true) (k : Nat) : runFor k rs = .next rs := by
  induction k with
  | zero => rfl
  | succ k ih => simp [runFor, runPass_of_stopped h, ih]

/-- Everything a pass that answers can have done: nothing, if the run had returned; the budget's stop; or one cycle request. -/
theorem runPass_cases {rs rs' : RunState} (h : runPass rs = .next rs') :
    (rs.stop.isSome = true ∧ rs' = rs) ∨
    (rs.stop = none ∧ rs.machine.params.runBudget = some rs.count ∧ rs' = { rs with stop := some .budgetExhausted }) ∨
    (rs.stop = none ∧ rs.machine.params.runBudget ≠ some rs.count ∧
      ∃ s, step rs.machine = .next s ∧ rs' = afterCycle rs s (s.report.getD .ok)) := by
  unfold runPass at h
  split at h
  · next stopped => cases h; exact .inl ⟨stopped, rfl⟩
  · next running =>
    have none : rs.stop = none := by simpa using running
    split at h
    · next budget => cases h; exact .inr (.inl ⟨none, budget, rfl⟩)
    · next budget =>
      split at h
      · next s stepped => cases h; exact .inr (.inr ⟨none, budget, s, stepped, rfl⟩)
      · cases h
      · cases h

end Sys2Proof.Machine
end

