-- ==== Sys2Proof/Tests/Slice0.lean ====
section
/-! SUPPORT. Tests on single steps, their results from spec/95_test_vectors.md and the examples of the rules, and for each statement with hypotheses
states and operands that meet them. -/

namespace Sys2Proof.Machine.Tests

/-- A machine of `n` memory cells and `m` registers with the given contents, about to run at `pc`. -/
def built (n m pc : Nat) (mem regs : Bank) : State :=
  { State.initial { Params.standard with memSize := n, regCount := m } with mem := mem, regs := regs, pc := BitVec.ofNat 9 pc }

/-- The full machine with a word at address 0 and the given registers. -/
def running (w : Word) (regs : Bank) : State := built 256 16 0 [(0, highByte w), (1, lowByte w)] regs

/-- The machine of section 2.3: N = 16, M = 4, a word at address 0. -/
def small (w : Word) : State := built 16 4 0 [(0, highByte w), (1, lowByte w)] []

/-- The next state of an outcome. -/
def nextOf (o : Host.Outcome State Fault Refusal) : Option State :=
  match o with
  | .next t => some t
  | .fault _ => none
  | .refused _ => none

/-- Register `r` after a step. -/
def regAfter (s : State) (r : Nat) : Option (Option Byte) := (nextOf (step s)).map fun t => t.regs.cell r

/-- Memory cell `a` after a step. -/
def memAfter (s : State) (a : Nat) : Option (Option Byte) := (nextOf (step s)).map fun t => t.mem.cell a

/-- The counter after a step. -/
def pcAfter (s : State) : Option Nat := (nextOf (step s)).map fun t => t.pc.toNat

/-- What a step reports. -/
def reportAfter (s : State) : Option CycleOutcome := (nextOf (step s)).bind fun t => t.report

/-- The state without its hidden register and report, to compare what a cycle may change. -/
def visible (s : State) : Bank × Bank × Nat × Bool := (s.mem, s.regs, s.pc.toNat, s.halted)

/-- The stop reason and the count of a run after `k` passes. -/
def runAfter (k : Nat) (s : State) : Option (Option StopReason × Nat) :=
  match runFor k (runStart s) with
  | .next rs => some (rs.stop, rs.count)
  | .fault _ => none
  | .refused _ => none

/-! ## WellFormed: an ill-formed term for each check (R66, R67) -/

theorem test_wellFormed_refuses_register :
    [Instr.ld 4 0, .ldi 4 0, .st 4 0, .mov 4 0, .mov 0 4, .add 4 0 0, .add 0 4 0, .add 0 0 4, .add6 4 0 0, .add6 0 4 0, .add6 0 0 4,
      .or 4 0 0, .or 0 4 0, .or 0 0 4, .and 4 0 0, .and 0 4 0, .and 0 0 4, .xor 4 0 0, .xor 0 4 0, .xor 0 0 4, .ror 4 0, .ror 0 4,
      .jeq 4 0].all (fun i => !i.wellFormed (small 0).params) = true := by decide

theorem test_wellFormed_refuses_address :
    [Instr.ld 3 0x10, .st 3 0x10].all (fun i => !i.wellFormed (small 0).params) = true := by decide

theorem test_wellFormed_accepts :
    [Instr.ld 3 0x0F, .ldi 3 0xFF, .st 3 0x0F, .mov 3 3, .add 3 3 3, .add6 3 3 3, .or 3 3 3, .and 3 3 3, .xor 3 3 3, .ror 3 3, .jeq 3 0xFF,
      .halt, .unknown0 0xFFF, .unknownD 0, .unknownE 0, .unknownF 0].all (fun i => i.wellFormed (small 0).params) = true := by decide

/-! ## Decoding: a word of every row written out from its encoding (30_encoding R49, R58; vectors of section 2.1) -/

theorem test_decode_ld : decode 0b0001_0011_0001_0000#16 = .ld 0x3 0x10 := by decide
theorem test_decode_ldi : decode 0b0010_0001_0000_0101#16 = .ldi 0x1 0x05 := by decide
theorem test_decode_st : decode 0b0011_0010_0010_0000#16 = .st 0x2 0x20 := by decide
theorem test_decode_mov : decode 0b0100_0000_0001_0011#16 = .mov 0x1 0x3 := by decide
theorem test_decode_mov_ignores_d1 : decode 0b0100_1111_0001_0011#16 = .mov 0x1 0x3 := by decide
theorem test_decode_add : decode 0b0101_0011_0001_0010#16 = .add 0x3 0x1 0x2 := by decide
theorem test_decode_add6 : decode 0b0110_0011_0001_0010#16 = .add6 0x3 0x1 0x2 := by decide
theorem test_decode_or : decode 0b0111_1010_1011_1100#16 = .or 0xA 0xB 0xC := by decide
theorem test_decode_and : decode 0b1000_0001_0010_0011#16 = .and 0x1 0x2 0x3 := by decide
theorem test_decode_xor : decode 0b1001_0100_0101_0110#16 = .xor 0x4 0x5 0x6 := by decide
theorem test_decode_ror : decode 0b1010_0001_1111_0010#16 = .ror 0x1 0x2 := by decide
theorem test_decode_jeq : decode 0b1011_0001_0001_0010#16 = .jeq 0x1 0x12 := by decide
theorem test_decode_halt : decode 0b1100_1010_1011_1100#16 = .halt := by decide
theorem test_decode_unknown0 : decode 0b0000_1111_1111_1111#16 = .unknown0 0xFFF := by decide
theorem test_decode_unknownD : decode 0b1101_0001_0010_0011#16 = .unknownD 0x123 := by decide
theorem test_decode_unknownE : decode 0b1110_1111_1111_1111#16 = .unknownE 0xFFF := by decide
theorem test_decode_unknownF : decode 0b1111_0000_0000_0000#16 = .unknownF 0x000 := by decide

/-- The cell at the lower address is the high byte; a missing byte is refused by name (R31, R57). -/
theorem test_decodeBytes : decodeBytes [0x21, 0x05] = .ok (.ldi 0x1 0x05, []) ∧ decodeBytes [0x21] = .error .truncated := by
  exact ⟨rfl, rfl⟩

theorem test_decodeTableWord : decodeTableWord 16 0x5312 = some (.add 0x3 0x1 0x2) := by decide

/-- The canonical words of R58. -/
theorem test_encode : [encode (.ld 1 0x23), encode (.mov 1 3), encode (.ror 1 2), encode (.jeq 0 0x0A), encode .halt] =
    [0x1123, 0x4013, 0xA102, 0xB00A, 0xC000] := by decide

/-! ## The cycle (vectors of section 2.2) -/

/-- S1: memory 21 05, one step: r1 = 05, pc = 2. -/
theorem test_cycle_S1 : regAfter (running 0x2105 []) 1 = some (some 0x05) ∧ pcAfter (running 0x2105 []) = some 2 := by decide

/-- V2, V3, V4: the end of memory is N - 1 and beyond, exact on 9 bits. -/
theorem test_cycle_end : [built 4 16 3 [] [], built 1 16 0 [] [], built 256 16 256 [] []].map reportAfter =
    [some .endOfProgram, some .endOfProgram, some .endOfProgram] := by decide

/-- V4: from FE the counter goes to 256. -/
theorem test_cycle_top : pcAfter (built 256 16 0xFE [(0xFE, 0x21), (0xFF, 0x05)] []) = some 256 := by decide

/-- V5: two unset cells are the word 0000, an unknown opcode; only `pc` moves. -/
theorem test_cycle_unset : reportAfter (built 256 16 0 [] []) = some (.unknownOpcode 0x0 0x0000) ∧
    (nextOf (step (built 256 16 0 [] []))).map visible = some ([], [], 2, false) := by decide

/-- V6: an odd counter. -/
theorem test_cycle_odd : regAfter (built 256 16 1 [(1, 0x21), (2, 0xAB)] []) 1 = some (some 0xAB) := by decide

/-- V7, V9: the halt gate comes before the end check. -/
theorem test_cycle_halted : reportAfter (setHalted (built 4 16 3 [] [])) = some .notRunHalted ∧
    pcAfter (setHalted (built 4 16 3 [] [])) = some 3 := by decide

/-- V10: the report carries the digit and the word. -/
theorem test_cycle_unknown : reportAfter (running 0xD123 []) = some (.unknownOpcode 0xD 0xD123) := by decide

/-- A state with sizes no construction accepts is no machine (R111). -/
theorem test_cycle_noSuchMachine : step (built 257 16 0 [] []) = .fault .noSuchMachine := rfl

/-- The first word after reset runs when it is placed where the step fetches. -/
theorem test_withFetchWord : regAfter (State.reset.withFetchWord 16 0x2105) 1 = some (some 0x05) := by decide

/-! ## Operand validation (vectors of section 2.3) -/

theorem test_validation_reports :
    [0x1412, 0x1110, 0x24FF, 0x3310, 0x4053, 0x4035, 0x5456, 0x5356, 0x5336, 0xA1F9, 0xB5FF].map (fun w => reportAfter (small w)) =
      [(⟨.register, .R, 4⟩ : Operand), ⟨.memory, .XY, 0x10⟩, ⟨.register, .R, 4⟩, ⟨.memory, .XY, 0x10⟩, ⟨.register, .R, 5⟩,
        ⟨.register, .S, 5⟩, ⟨.register, .R, 4⟩, ⟨.register, .S, 5⟩, ⟨.register, .T, 6⟩, ⟨.register, .X, 9⟩,
        ⟨.register, .R, 5⟩].map (fun e => some (.addressError e)) := by decide

theorem test_validation_accepts :
    [0x110F, 0x21FF, 0x4F13, 0xA1F2, 0xB0FF, 0xCFFF].all (fun w => reportAfter (small w) = some .ok) = true := by decide

/-- A failing cycle changes only the counter (R97, D10). -/
theorem test_validation_precise : (nextOf (step (small 0xB5FF))).map visible = some ((small 0xB5FF).mem, [], 2, false) := by decide

/-! ## Data transfer (vectors of section 2.4) -/

/-- T1. -/
theorem test_ld : regAfter (built 256 16 0 [(0, 0x13), (1, 0x10), (0x10, 0x5A)] []) 3 = some (some 0x5A) := by decide
/-- T2: an unset cell loads 00 and sets the register. -/
theorem test_ld_unset : regAfter (running 0x1310 []) 3 = some (some 0x00) := by decide
/-- T5. -/
theorem test_ldi_sets : regAfter (running 0x2F00 []) 15 = some (some 0x00) := by decide
/-- T6. -/
theorem test_st : memAfter (running 0x3220 [(2, 0x07)]) 0x20 = some (some 0x07) := by decide
/-- T7: an unset register stores 00 and sets the cell. -/
theorem test_st_unset : memAfter (running 0x3220 []) 0x20 = some (some 0x00) := by decide
/-- T9. -/
theorem test_mov : regAfter (running 0x4013 [(1, 0xC0)]) 3 = some (some 0xC0) := by decide
/-- T10, T11: the direction, and an unset source sets the destination. -/
theorem test_mov_direction : regAfter (running 0x4031 [(1, 0xC0)]) 1 = some (some 0x00) := by decide

/-! ## ALU (vectors of sections 2.5, 2.6, 2.7) -/

theorem test_add8_vectors :
    [(0x01, 0x01, 0x02), (0x80, 0x01, 0x81), (0x7F, 0x01, 0x80), (0x7F, 0x7F, 0x02), (0x64, 0x64, 0x38), (0x40, 0x41, 0x7F),
      (0x80, 0x80, 0x00), (0x80, 0xFF, 0x81), (0x80, 0x00, 0x80), (0xC0, 0xC0, 0x80), (0xC0, 0xBF, 0x81), (0x81, 0x81, 0xFE),
      (0xFF, 0xFF, 0xFE), (0xFF, 0x01, 0x00), (0x05, 0xFD, 0x02), (0x00, 0x00, 0x00), (0x7F, 0x00, 0x7F)].all
      (fun (s, t, c) => add8 .negate s t == c) = true := by decide

theorem test_add_aliased : regAfter (running 0x5112 [(1, 0x03), (2, 0x04)]) 1 = some (some 0x07) := by decide
theorem test_add_band : regAfter (running 0x5111 [(1, 0x7F)]) 1 = some (some 0x02) := by decide
theorem test_add6 : regAfter (running 0x6412 [(1, 0x80), (2, 0x01)]) 4 = some (some 0x81) := by decide
theorem test_or : regAfter (running 0x7312 [(1, 0xF0), (2, 0x0F), (3, 0x55)]) 3 = some (some 0xFF) := by decide
theorem test_and : regAfter (running 0x8312 [(1, 0xCC), (2, 0xAA), (3, 0x00)]) 3 = some (some 0x88) := by decide
theorem test_and_unset : regAfter (running 0x8312 [(1, 0xFF), (3, 0x12)]) 3 = some (some 0x00) := by decide
theorem test_xor : regAfter (running 0x9312 [(1, 0xCC), (2, 0xAA), (3, 0x00)]) 3 = some (some 0x66) := by decide
theorem test_xor_same : regAfter (running 0x9311 [(1, 0x5A), (3, 0x77)]) 3 = some (some 0x00) := by decide

theorem test_rotr8_vectors :
    [(0x01, 0x01, 0x80), (0x81, 0x01, 0xC0), (0xB4, 0x03, 0x96), (0xB4, 0x0B, 0x96), (0xB4, 0x08, 0xB4), (0xB4, 0xFF, 0x69),
      (0x80, 0x07, 0x01), (0xFF, 0x05, 0xFF), (0x96, 0x05, 0xB4)].all (fun (v, x, c) => rotr8 v (rotateCount x) == c) = true := by decide

/-- The count is the contents of the register, not the digit. -/
theorem test_ror : regAfter (running 0xAF02 [(2, 0x03), (15, 0xB4)]) 15 = some (some 0x96) := by decide
/-- `X = R`: the count is the old value. -/
theorem test_ror_itself : regAfter (running 0xA101 [(1, 0x03)]) 1 = some (some 0x60) := by decide

/-! ## Control (vectors of section 2.8) -/

/-- J1, J2. -/
theorem test_jeq : pcAfter (built 256 16 0x0E [(0x0E, 0xB1), (0x0F, 0x12)] [(0, 0x00), (1, 0x00)]) = some 0x12 ∧
    pcAfter (built 256 16 0x0E [(0x0E, 0xB1), (0x0F, 0x12)] [(0, 0x00), (1, 0x01)]) = some 0x10 := by decide
/-- J5: the target is not checked at the jump. -/
theorem test_jeq_unchecked : pcAfter (small 0xB0FF) = some 0xFF := by decide
/-- H1. -/
theorem test_halt : (nextOf (step (built 256 16 8 [(8, 0xC0), (9, 0x00)] []))).map (fun t => (t.halted, t.pc.toNat, t.report)) =
    some (true, 0x0A, some .ok) := by decide
theorem test_unknownF : (nextOf (step (running 0xF000 [(1, 0x11)]))).map (fun t => (visible t, t.report)) =
    some (((running 0xF000 []).mem, [(1, 0x11)], 2, false), some (.unknownOpcode 0xF 0xF000)) := rfl

/-! ## Host requests (vectors of section 2.10) -/

/-- P-H1, P-H6, P-H7. -/
theorem test_writeMemory_ok :
    ((writeMemory State.reset 0 (.text ['2', '1']) [.text ['f'], .number 255]).2.mem) = [(0, 0x21), (1, 0x0F), (2, 0xFF)] := by decide
/-- P-H2, P-H3, P-H4, P-H5: format before address, and nothing written. -/
theorem test_writeMemory_fails :
    writeMemory State.reset 255 (.text ['A', 'B']) [.text ['C', 'D']] = (.addressError, State.reset) ∧
    writeMemory State.reset 0 (.text ['1', 'G']) [] = (.formatError, State.reset) ∧
    writeMemory State.reset 0 (.text ['1', '0', '0']) [] = (.formatError, State.reset) ∧
    writeMemory State.reset 256 (.text ['1', 'G']) [] = (.formatError, State.reset) := by decide
/-- P-H8. -/
theorem test_writeRegister_fails : writeRegister State.reset 16 (.text ['0', '1']) [] = (.addressError, State.reset) := by decide
/-- P-H9: `__` for an unset cell, two lowercase digits for a set one. -/
theorem test_render : render .memory (built 256 16 0 [(1, 0x0A)] []) 0 = .ok ['_', '_'] ∧
    render .memory (built 256 16 0 [(1, 0x0A)] []) 1 = .ok ['0', 'a'] := ⟨rfl, rfl⟩
/-- P-H10, P-H11. -/
theorem test_setInstructionCounter : setInstructionCounter State.reset 256 = (.addressError, State.reset) ∧
    (setInstructionCounter (setHalted (built 4 4 3 [] [])) 0).2 = setHalted (built 4 4 0 [] []) := by decide
/-- P-H12, P-H13. -/
theorem test_newMachine :
    ([(0, 16, 0), (257, 1, 0), (4, 17, 0), (4, 1, 4), (1, 1, 0)].map fun (n, m, a) =>
      (newMachine { Params.standard with memSize := n, regCount := m, pcInit := a }).isOk) = [false, false, false, false, true] := by decide

/-! ## Runs (vectors of section 2.9, at most two cycles each) -/

/-- U1, U2, U7. -/
theorem test_run_no_cycle : runAfter 1 (setHalted (running 0x0000 [])) = some (some .notRunHalted, 0) ∧
    runAfter 1 (built 4 16 3 [] []) = some (some .endOfProgram, 0) ∧
    runAfter 1 (State.initial { Params.standard with runBudget := some 0 }) = some (some .budgetExhausted, 0) := by decide
/-- The last two words of P4: under `THREE_AHEAD` the run stops at the guard, under `FETCHABLE` it goes on past the unknown opcode to the end. -/
theorem test_run_guard :
    runAfter 1 { built 6 2 2 [(2, 0x51), (3, 0x11), (4, 0xF0), (5, 0x00)] [(1, 0x7F)] with
      params := { Params.standard with memSize := 6, regCount := 2, runContinue := .threeAhead } } = some (some .guardStop, 1) ∧
    runAfter 2 (built 6 2 2 [(2, 0x51), (3, 0x11), (4, 0xF0), (5, 0x00)] [(1, 0x7F)]) = some (some .endOfProgram, 2) := by decide

/-! ## Witnesses: for each statement with hypotheses, states and operands that meet them, at the bounds of their ranges -/

theorem witness_TopDigitSelectsTheOperation :
    [0x0FFF#16, 0x1FFF#16, 0x2FFF#16, 0x3FFF#16, 0x4FFF#16, 0x5FFF#16, 0x6FFF#16, 0x7FFF#16, 0x8FFF#16, 0x9FFF#16, 0xAFFF#16, 0xBFFF#16,
      0xCFFF#16, 0xDFFF#16, 0xEFFF#16, 0xFFFF#16].map (fun w => w.toNat / 4096) = List.range 16 := by decide

/-- The last two cells of a full memory. -/
def atTop : State := built 256 16 254 [(254, 0x21), (255, 0x05)] []

theorem witness_StepRunsTheDecodedInstruction : atTop.params.legal = true ∧ atTop.halted = false ∧
    atTop.pc.toNat + 1 < atTop.params.memSize ∧
    decodeBytes [atTop.mem.read atTop.pc.toNat, atTop.mem.read (atTop.pc.toNat + 1)] = .ok (.ldi 0x1 0x05, []) :=
  ⟨rfl, rfl, by decide, rfl⟩

theorem witness_PlacedWordRunsNext : atTop.params.legal = true ∧ atTop.pc.toNat + 1 < atTop.params.memSize := by decide

theorem witness_HaltedMachineRunsNoCycle :
    (setHalted atTop).params.legal = true ∧ (setHalted atTop).halted = true ∧ (setHalted atTop).params.runBudget ≠ some 0 ∧
    (∃ rs, runFor 2 (runStart (setHalted atTop)) = .next rs) := ⟨rfl, rfl, by decide, _, rfl⟩

/-- A machine of four cells whose counter is at its last. -/
def atEnd : State := built 4 4 3 [(0, 0xC0)] []

theorem witness_EndOfProgramUntilTheCounterIsMoved :
    atEnd.params.legal = true ∧ atEnd.halted = false ∧ ¬ atEnd.pc.toNat + 1 < atEnd.params.memSize ∧ 2 + 1 < atEnd.params.memSize ∧
    step atEnd = .next (answer atEnd .endOfProgram) := ⟨rfl, rfl, by decide, by decide, rfl⟩

theorem witness_OutcomeFollowsTheOrderOfChecks :
    (setHalted atEnd).params.legal = true ∧ (setHalted atEnd).halted = true ∧
    (atEnd.halted = false ∧ ¬ atEnd.pc.toNat + 1 < atEnd.params.memSize) ∧
    (opField (fetchWord (small 0xD123)) = 0xD#4 ∧ fetchable (small 0xD123) = true) ∧
    (opField (fetchWord (small 0x1110)) = 0x1#4 ∧ (decode (fetchWord (small 0x1110))).wellFormed (small 0x1110).params = false) ∧
    (opField (fetchWord (small 0x110F)) = 0x1#4 ∧ (decode (fetchWord (small 0x110F))).wellFormed (small 0x110F).params = true) := by decide

theorem witness_ErrorsArePrecise :
    [small 0x1110, small 0xF000, atEnd, setHalted atEnd].map reportAfter =
      [some (.addressError ⟨.memory, .XY, 0x10⟩), some (.unknownOpcode 0xF 0xF000), some .endOfProgram, some .notRunHalted] ∧
    (writeMemory atEnd 4 (.number 0) []).1 ≠ .ok ∧ (writeRegister atEnd 4 (.number 0) []).1 ≠ .ok ∧
    (setInstructionCounter atEnd 4).1 ≠ .ok := by decide

/-- For LD, LDI, ST, MOV, ADD, ADD6, OR, AND, XOR, ROR and JEQ: the last register and the last cell of the full machine and of a small one. -/
theorem witness_operands_exist : HasReg State.reset 0xF#4 ∧ HasMem State.reset 0xFF#8 ∧ HasReg atEnd 0x3#4 ∧ HasMem atEnd 0x03#8 := by decide

/-- ADD: the largest sum outside the band, the smallest magnitudes inside it, both ends of it, and a sum that negation changes. -/
theorem witness_NegateBandOfTheAdd : atTop.params.addOverflow = .negate ∧ HasReg atTop 0xF#4 ∧
    [(0x7F#8, 0x00#8), (0x80#8, 0x01#8), (0x80#8, 0x00#8), (0x7F#8, 0x01#8), (0x80#8, 0x80#8), (0x7F#8, 0x7F#8)].map
      (fun (x, y) => x.toInt + y.toInt) = [127, -127, -128, 128, -256, 254] := by decide

theorem witness_RotateFormulaAndBits : (0 < 8 ∧ 7 < 8 : Prop) := by decide

/-- Counts 3 and 5, and counts that are both 0 mod 8. -/
theorem witness_SecondRotateUndoesTheFirst :
    HasReg State.reset 0xF#4 ∧ (0x2#4 ≠ 0xF#4) ∧
    ((built 256 16 0 [] [(1, 0x0B), (2, 0x05)]).regs.read 2).toNat % 8 =
      (8 - ((built 256 16 0 [] [(1, 0x0B), (2, 0x05)]).regs.read 1).toNat % 8) % 8 ∧
    ((built 256 16 0 [] [(1, 0x08)]).regs.read 2).toNat % 8 = (8 - ((built 256 16 0 [] [(1, 0x08)]).regs.read 1).toNat % 8) % 8 := by decide

/-- Each clause of the validation table at the first index or address that does not exist (M = 4, N = 16). -/
theorem witness_FirstBadOperandIsReported :
    HasReg (small 0) 0x3#4 ∧ ¬ HasReg (small 0) 0x4#4 ∧ HasMem (small 0) 0x0F#8 ∧ ¬ HasMem (small 0) 0x10#8 := by decide

/-- Both banks: a bad value, a run one past the end, and a run up to the last cell. -/
theorem witness_host_writes_all_or_nothing :
    parseValue (.text ['1', 'G']) = none ∧ parseValue (.number 256) = none ∧ (∀ v ∈ [HostValue.number 0, .number 255], parseValue v ≠ none) ∧
    atEnd.params.memSize < 3 + (1 + 1) ∧ 2 + (1 + 1) ≤ atEnd.params.memSize ∧
    atEnd.params.regCount < 3 + (1 + 1) ∧ 2 + (1 + 1) ≤ atEnd.params.regCount := by decide

theorem witness_RenderingReadsBack :
    0 < bankSize atEnd .memory ∧ (bankOf atEnd .memory).cell 0 = some 0xC0#8 ∧ 3 < bankSize atEnd .memory ∧
    (bankOf atEnd .memory).cell 3 = none ∧ bankSize atEnd .memory ≤ 4 ∧
    3 < bankSize (built 4 4 0 [] [(3, 0xFF)]) .register ∧ (bankOf (built 4 4 0 [] [(3, 0xFF)]) .register).cell 3 = some 0xFF#8 ∧
    (bankOf (built 4 4 0 [] [(3, 0xFF)]) .register).cell 0 = none ∧ bankSize atEnd .register ≤ 4 := by decide

theorem witness_SetInstructionCounterMovesOnlyTheCounter :
    atEnd.params.legal = true ∧ 3 < atEnd.params.memSize ∧ atEnd.params.memSize ≤ 4 := by decide

/-- A state after a host write of one byte. -/
theorem witness_AfterHostWrite : AfterHostWrite atEnd (writeMemory atEnd 3 (.number 7) []).2 := ⟨3, .number 7, [], .inl rfl⟩

theorem witness_ClearHaltedIsTheOnlyWayOut : (setHalted atEnd).halted = true ∧
    step (setHalted atEnd) = .next (answer (setHalted atEnd) .notRunHalted) ∧
    (∃ rs, runFor 2 (runStart (setHalted atEnd)) = .next rs) := ⟨rfl, rfl, _, rfl⟩

theorem witness_HaltedIsSetOnlyByHalt :
    (∃ t, step (small 0xC000) = .next t ∧ (small 0xC000).halted = false ∧ t.halted = true) ∧
    (∃ t, step (setHalted atEnd) = .next t ∧ (setHalted atEnd).halted = true) ∧
    (∃ t, step (small 0x1110) = .next t ∧ t.faulted = true) ∧
    (∃ t op w, step (small 0xD123) = .next t ∧ t.report = some (.unknownOpcode op w)) ∧
    (∃ t, step atEnd = .next t ∧ t.report = some .endOfProgram) :=
  ⟨⟨_, rfl, rfl, rfl⟩, ⟨_, rfl, rfl⟩, ⟨_, rfl, rfl⟩, ⟨_, _, _, rfl, rfl⟩, ⟨_, rfl, rfl⟩⟩

/-- T8: a store into the next instruction's first cell, and into its second. -/
theorem witness_StoredByteIsFetched :
    (∃ t, exec (.st 0x1 0x02) (fetched (running 0x3102 [(1, 0xC0)])) = .next t ∧ t.pc.toNat = (0x02#8).toNat) ∧
    (∃ t, exec (.st 0x1 0x03) (fetched (running 0x3103 [(1, 0xC0)])) = .next t ∧ t.pc.toNat + 1 = (0x03#8).toNat) ∧
    (0xFF#9).toNat = (0xFF#8).toNat ∧ (0xFE#9).toNat + 1 = (0xFF#8).toNat ∧ HasReg State.reset 0x1#4 ∧ HasMem State.reset 0xFF#8 :=
  ⟨⟨_, rfl, by decide⟩, ⟨_, rfl, by decide⟩, by decide⟩

theorem witness_ConstructionIsBoundedAndUnset :
    ([(1, 1, 0), (256, 16, 255), (0, 1, 0), (257, 1, 0), (1, 0, 0), (1, 17, 0), (4, 1, 4)].map fun (n, m, a) =>
      ({ Params.standard with memSize := n, regCount := m, pcInit := a } : Params).legal) =
      [true, true, false, false, false, false, false] := by decide

theorem witness_ConstructionMeetsTheInvariant : newMachine Params.standard = .ok State.reset := rfl

/-- The invariant's statements: a jump to FF on a small machine, a cycle at the top of memory, a write to the last cell. -/
theorem witness_EveryStepKeepsTheInvariant :
    (small 0xB0FF).inv = true ∧ (∃ t, step (small 0xB0FF) = .next t) ∧ atTop.inv = true ∧ (∃ t, step atTop = .next t) ∧ atEnd.inv = true :=
  ⟨by decide, ⟨_, rfl⟩, by decide, ⟨_, rfl⟩, by decide⟩

/-- SetCellsStaySet and ParametersNeverChange: a step with a set memory cell and a set register. -/
theorem witness_SetCellsStaySet :
    (∃ t, step (running 0x5112 [(1, 0x03)]) = .next t) ∧ ((running 0x5112 [(1, 0x03)]).mem.cell 1).isSome = true ∧
    ((running 0x5112 [(1, 0x03)]).regs.cell 1).isSome = true := ⟨⟨_, rfl⟩, by decide⟩

theorem witness_CounterMovesByAdvanceOrJump :
    (∃ t, step (small 0xB0FF) = .next t ∧ gate (small 0xB0FF) = none ∧ t.pc.toNat = 0xFF) ∧
    (∃ t, step (small 0x2105) = .next t ∧ gate (small 0x2105) = none ∧ t.pc.toNat = 2) ∧
    (∃ t, step atEnd = .next t ∧ gate atEnd ≠ none) := ⟨⟨_, rfl, by decide⟩, ⟨_, rfl, by decide⟩, ⟨_, rfl, by decide⟩⟩

theorem witness_StepWritesOnlyTheDestination :
    (∃ t, step (running 0x3220 []) = .next t ∧ t.mem.cell 0x20 ≠ (running 0x3220 []).mem.cell 0x20) ∧
    (∃ t, step (running 0x2F00 []) = .next t ∧ t.regs.cell 15 ≠ (running 0x2F00 []).regs.cell 15) :=
  ⟨⟨_, rfl, by decide⟩, ⟨_, rfl, by decide⟩⟩

theorem witness_HiddenRegisterHasNoEffect : gate atTop = none ∧ (∃ t, step atTop = .next t) ∧ (∃ t, step atEnd = .next t) :=
  ⟨by decide, ⟨_, rfl⟩, ⟨_, rfl⟩⟩

theorem witness_BudgetedRunReturns :
    (State.initial { Params.standard with runBudget := some 2 }).params.legal = true ∧
    (State.initial { Params.standard with runBudget := some 2 }).params.runBudget = some 2 := by decide

/-- A run that returns for each stop reason: HALTED, END_OF_PROGRAM, ADDRESS_ERROR, NOT_RUN_HALTED, BUDGET_EXHAUSTED; GUARD_STOP is in test_run_guard. -/
theorem witness_StopReasonDescribesTheMachine :
    [small 0xC000, built 2 4 0 [] [], small 0x1110, setHalted atEnd].map (runAfter 1) =
      [some (some .halted, 1), some (some .endOfProgram, 1), some (some .addressError, 1), some (some .notRunHalted, 0)] ∧
    runAfter 2 (State.initial { Params.standard with runBudget := some 1 }) = some (some .budgetExhausted, 1) ∧
    RunReturns (small 0xC000) (afterCycle (runStart (small 0xC000)) (answer (setHalted (fetched (small 0xC000))) .ok) .ok) :=
  ⟨by decide, by decide, 1, rfl, rfl⟩

theorem witness_UnknownOpcodeDoesNotStopARun :
    (runStart (small 0xF000)).stop = none ∧ (runStart (small 0xF000)).machine.params.runBudget ≠ some (runStart (small 0xF000)).count ∧
    (∃ t, step (runStart (small 0xF000)).machine = .next t ∧ t.report = some (.unknownOpcode 0xF 0xF000) ∧ runContinue t = true) :=
  ⟨rfl, by decide, _, rfl, by decide⟩

theorem witness_FetchableGuardRepeatsTheFetchCheck :
    (runStart (small 0x2105)).machine.params.runContinue = .fetchable ∧ (runStart (small 0x2105)).stop = none ∧
    (runStart (small 0x2105)).machine.params.runBudget ≠ some (runStart (small 0x2105)).count ∧
    (∃ rs, runPass (runStart (small 0x2105)) = .next rs ∧ rs.stop = none) := ⟨rfl, rfl, by decide, _, rfl, rfl⟩

/-- P5, on the smallest machine that fetches: `B000` at 0 with N = 2, M = 1. -/
theorem witness_TakenSelfJumpRunsForever :
    (built 2 1 0 [(0, 0xB0), (1, 0x00)] []).params.legal = true ∧ (built 2 1 0 [(0, 0xB0), (1, 0x00)] []).halted = false ∧
    (built 2 1 0 [(0, 0xB0), (1, 0x00)] []).pc.toNat + 1 < (built 2 1 0 [(0, 0xB0), (1, 0x00)] []).params.memSize ∧
    decode (fetchWord (built 2 1 0 [(0, 0xB0), (1, 0x00)] [])) = .jeq 0x0 0x00 ∧ HasReg (built 2 1 0 [(0, 0xB0), (1, 0x00)] []) 0x0#4 ∧
    (0x00#8).toNat = (built 2 1 0 [(0, 0xB0), (1, 0x00)] []).pc.toNat ∧ runContinue (built 2 1 0 [(0, 0xB0), (1, 0x00)] []) = true ∧
    (built 2 1 0 [(0, 0xB0), (1, 0x00)] []).params.runBudget = none := by decide

end Sys2Proof.Machine.Tests
end

section
/-! PROOFS. The statements about the whole state (spec/10_state.md) and the laws they rest on: what keeps the invariant, what a cycle does to
`halted` and to the banks, what it does not read, and what the caller's requests can do. -/

namespace Sys2Proof

/-- The bounds construction checks, as a proposition (R111). -/
theorem Params.legal_iff {p : Params} :
    p.legal = true ↔ 1 ≤ p.memSize ∧ p.memSize ≤ 256 ∧ 1 ≤ p.regCount ∧ p.regCount ≤ 16 ∧ p.pcInit < p.memSize := by
  simp [Params.legal]

end Sys2Proof

namespace Sys2Proof.Machine

/-! ## The gate (R62, R63) -/

theorem gate_of_halted {s : State} (h : s.halted = true) : gate s = some .notRunHalted := by
  simp [gate, h]

/-- A cycle executes only while RUNNING and with both its cells in memory. -/
theorem gate_eq_none_iff {s : State} : gate s = none ↔ s.halted = false ∧ s.pc.toNat + 1 < s.params.memSize := by
  rcases gate_cases s with ⟨halted, g⟩ | ⟨halted, past, g⟩ | ⟨halted, fits, g⟩
  · simp [g, halted]
  · simp [g, past]
  · simp [g, halted, fits]

/-! ## What keeps the invariant (R13, R19, R28, R111) -/

theorem State.inv_iff {s : State} :
    s.inv = true ↔ s.params.legal = true ∧ Bank.wf s.params.memSize s.mem = true ∧ Bank.wf s.params.regCount s.regs = true ∧
      s.pc.toNat ≤ 256 := by
  simp [State.inv, Memory.wf, Registers.wf, and_assoc]

@[simp] theorem inv_answer (s : State) (o : CycleOutcome) : (answer s o).inv = s.inv := rfl

@[simp] theorem inv_setHalted (s : State) : (setHalted s).inv = s.inv := rfl

theorem inv_writeReg {s : State} {d : Digit} (v : Byte) (there : HasReg s d) (h : s.inv = true) : (writeReg s d v).inv = true := by
  obtain ⟨legal, memWf, regsWf, pcLe⟩ := State.inv_iff.mp h
  exact State.inv_iff.mpr ⟨legal, memWf, Bank.wf_write v there regsWf, pcLe⟩

theorem inv_writeMem {s : State} {a : Nat} (v : Byte) (there : a < s.params.memSize) (h : s.inv = true) :
    (writeMem s a v).inv = true := by
  obtain ⟨legal, memWf, regsWf, pcLe⟩ := State.inv_iff.mp h
  exact State.inv_iff.mpr ⟨legal, Bank.wf_write v there memWf, regsWf, pcLe⟩

theorem inv_setPc {s : State} {t : Counter} (le : t.toNat ≤ 256) (h : s.inv = true) : (setPc s t).inv = true := by
  obtain ⟨legal, memWf, regsWf, _⟩ := State.inv_iff.mp h
  exact State.inv_iff.mpr ⟨legal, memWf, regsWf, le⟩

/-- The gate lets a cycle execute only with both its cells in memory, so the advance does not pass 256 (R19, R63, R65). -/
theorem inv_fetched {s : State} (g : gate s = none) (h : s.inv = true) : (fetched s).inv = true := by
  obtain ⟨legal, memWf, regsWf, _⟩ := State.inv_iff.mp h
  obtain ⟨_, memLe, _⟩ := Params.legal_iff.mp legal
  obtain ⟨_, fits⟩ := gate_eq_none_iff.mp g
  have advance : (s.pc + 2#9).toNat ≤ 256 := by
    rw [BitVec.toNat_add, BitVec.toNat_ofNat]; omega
  exact State.inv_iff.mpr ⟨legal, memWf, regsWf, advance⟩

theorem inv_initial {p : Params} (legal : p.legal = true) : (State.initial p).inv = true := by
  obtain ⟨_, memLe, _, _, pcLt⟩ := Params.legal_iff.mp legal
  have start : (BitVec.ofNat 9 p.pcInit).toNat ≤ 256 := by
    rw [BitVec.toNat_ofNat]; omega
  exact State.inv_iff.mpr ⟨legal, Bank.wf_nil _, Bank.wf_nil _, start⟩

/-- A jump's target is one byte, so it is in 0 to 255 (R93). -/
theorem Executes.inv {i : Instr} {s t : State} (e : Executes i s t) (h : s.inv = true) : t.inv = true := by
  cases e with
  | addressError | noJump | halt | unknown => simpa using h
  | register d v there => simpa using inv_writeReg v there h
  | memory a v there => simpa using inv_writeMem v there h
  | jump r target =>
    have inByte : (target.setWidth 9).toNat ≤ 256 := by
      rw [BitVec.toNat_setWidth]; omega
    simpa using inv_setPc inByte h

/-- Settles O41: a request turned away changes no field of the invariant, and an executed cycle keeps it through the fetch and the operation. -/
theorem everyStepKeepsTheInvariant : Obligations.EveryStepKeepsTheInvariant := by
  intro s t h stepped
  obtain ⟨_, ⟨o, _, rfl⟩ | ⟨g, executed⟩⟩ := step_next stepped
  · simpa using h
  · exact executed.inv (inv_fetched g h)

/-- Settles O40: the bounds construction checks are all the invariant needs of a state with empty banks. -/
theorem constructionMeetsTheInvariant : Obligations.ConstructionMeetsTheInvariant := by
  refine ⟨inv_initial (by decide), fun p s built => ?_⟩
  unfold newMachine at built
  split at built
  · next legal => cases built; exact inv_initial legal
  · cases built

/-- Settles O39: State.reset is `State.initial`, whose banks are empty. -/
theorem resetIsAConstruction : Obligations.ResetIsAConstruction := by
  have cellsUnset : ∀ a, State.reset.mem.cell a = none ∧ readMem State.reset a = 0x00#8 := fun a =>
    ⟨Bank.cell_nil a, Bank.read_nil a⟩
  have registersUnset : ∀ r : Digit, State.reset.regs.cell r.toNat = none ∧ readReg State.reset r = 0x00#8 := fun r =>
    ⟨Bank.cell_nil r.toNat, Bank.read_nil r.toNat⟩
  exact ⟨rfl, cellsUnset, registersUnset, rfl, rfl, rfl, rfl, rfl, rfl, rfl⟩

/-! ## What the caller's requests can do (R42, R43, R70) -/

@[simp] theorem withBank_params (s : State) (space : Space) (b : Bank) : (withBank s space b).params = s.params := by
  cases space <;> rfl

@[simp] theorem withBank_halted (s : State) (space : Space) (b : Bank) : (withBank s space b).halted = s.halted := by
  cases space <;> rfl

/-- A host write leaves the state alone, or writes one run of values inside one bank (R42, R43). -/
theorem writeBank_cases (space : Space) (s : State) (a : Nat) (first : HostValue) (more : List HostValue) :
    (writeBank space s a first more).2 = s ∨
    ∃ bytes, a + bytes.length ≤ bankSize s space ∧
      (writeBank space s a first more).2 = withBank s space ((bankOf s space).writeRun a bytes) := by
  unfold writeBank
  cases parseRun (first :: more) with
  | none => exact .inl rfl
  | some bytes =>
    by_cases fits : a + bytes.length ≤ bankSize s space
    · exact .inr ⟨bytes, fits, by simp [fits]⟩
    · exact .inl (by simp [fits])

theorem afterHostWrite_cases {s t : State} (h : AfterHostWrite s t) :
    t = s ∨ ∃ space a bytes, a + bytes.length ≤ bankSize s space ∧ t = withBank s space ((bankOf s space).writeRun a bytes) := by
  obtain ⟨a, first, more, rfl | rfl⟩ := h
  · exact (writeBank_cases .memory s a first more).imp_right fun ⟨bytes, written⟩ => ⟨.memory, a, bytes, written⟩
  · exact (writeBank_cases .register s a first more).imp_right fun ⟨bytes, written⟩ => ⟨.register, a, bytes, written⟩

theorem setInstructionCounter_cases (s : State) (a : Nat) :
    (setInstructionCounter s a).2 = s ∨
    (a < s.params.memSize ∧ (setInstructionCounter s a).2 = setPc s (BitVec.ofNat 9 a)) := by
  by_cases inside : a < s.params.memSize
  · exact .inr ⟨inside, by simp [setInstructionCounter, inside]⟩
  · exact .inl (by simp [setInstructionCounter, inside])

/-! ## `halted` (R21) -/

/-- The halt operation alone touches `halted`, and its outcome is OK. -/
theorem Executes.halted_cases {i : Instr} {s t : State} (e : Executes i s t) :
    t.halted = s.halted ∨ (i = .halt ∧ t.report = some .ok) := by
  cases e with
  | addressError | register | memory | jump | noJump | unknown => exact .inl rfl
  | halt isHalt => exact .inr ⟨isHalt, rfl⟩

theorem step_halted_cases {s t : State} (stepped : step s = .next t) :
    t.halted = s.halted ∨ (gate s = none ∧ decode (fetchWord s) = .halt ∧ t.report = some .ok) := by
  obtain ⟨_, ⟨o, _, rfl⟩ | ⟨g, executed⟩⟩ := step_next stepped
  · exact .inl rfl
  · exact executed.halted_cases.imp_right fun ⟨isHalt, ok⟩ => ⟨g, isHalt, ok⟩

theorem step_of_halted {s t : State} (stepped : step s = .next t) (halted : s.halted = true) : t = answer s .notRunHalted := by
  have turnedAway := gate_of_halted halted
  obtain ⟨_, ⟨o, g, rfl⟩ | ⟨g, _⟩⟩ := step_next stepped
  · rw [turnedAway] at g; cases g; rfl
  · rw [turnedAway] at g; cases g

theorem halted_afterHostWrite {s t : State} (h : AfterHostWrite s t) : t.halted = s.halted := by
  obtain rfl | ⟨space, a, bytes, _, rfl⟩ := afterHostWrite_cases h
  · rfl
  · simp

theorem halted_setInstructionCounter (s : State) (a : Nat) : (setInstructionCounter s a).2.halted = s.halted := by
  obtain eq | ⟨_, eq⟩ := setInstructionCounter_cases s a <;> simp [eq]

/-- Settles O36: `step_halted_cases` gives the two clauses about steps that leave or set `halted`, since a step that sets it reports OK. -/
theorem haltedIsSetOnlyByHalt : Obligations.HaltedIsSetOnlyByHalt := by
  intro s t
  refine ⟨fun stepped running halts => ?_, ?_, step_of_halted, fun stepped erred => ?_, rfl⟩
  · obtain same | ⟨g, isHalt, _⟩ := step_halted_cases stepped
    · simp [same, running] at halts
    · exact ⟨g, isHalt⟩
  · rintro (written | ⟨a, rfl⟩)
    · exact halted_afterHostWrite written
    · exact halted_setInstructionCounter s a
  · obtain same | ⟨_, _, ok⟩ := step_halted_cases stepped
    · exact same
    · simp [State.faulted, ok] at erred

/-! ## The banks (R12, R14, R17) -/

/-- A bank keeps its set cells when every cell that is set stays set (R14). -/
def Bank.KeepsSet (b c : Bank) : Prop := ∀ a, (b.cell a).isSome = true → (c.cell a).isSome = true

theorem Bank.keepsSet_refl (b : Bank) : b.KeepsSet b := fun _ set => set

theorem Bank.keepsSet_write (b : Bank) (a : Nat) (v : Byte) : b.KeepsSet (b.write a v) := by
  intro c set
  by_cases eq : c = a
  · simp [eq]
  · simpa [eq] using set

theorem Bank.keepsSet_writeRun (b : Bank) (a : Nat) (vs : List Byte) : b.KeepsSet (b.writeRun a vs) := by
  induction vs generalizing b a with
  | nil => exact b.keepsSet_refl
  | cons v vs ih => exact fun c set => ih (b.write a v) (a + 1) c (b.keepsSet_write a v c set)

/-- A cell a write changed is the one written (R30). -/
theorem Bank.eq_of_cell_write_ne {b : Bank} {a c : Nat} {v : Byte} (changed : (b.write a v).cell c ≠ b.cell c) : c = a := by
  by_contra ne
  exact changed (b.cell_write_of_ne v ne)

/-- What one cycle request can do to the two banks: nothing, or, in an executed cycle, one write of the register or of the memory cell that the
decoded operation names (R12, R17). -/
inductive StepStores (s t : State) : Prop where
  | nothing (mem : t.mem = s.mem) (regs : t.regs = s.regs)
  | register (g : gate s = none) (d : Digit) (v : Byte) (dest : writtenRegister (decode (fetchWord s)) = some d) (mem : t.mem = s.mem)
      (regs : t.regs = s.regs.write d.toNat v)
  | memory (g : gate s = none) (a : Byte) (v : Byte) (dest : writtenCell (decode (fetchWord s)) = some a)
      (mem : t.mem = s.mem.write a.toNat v) (regs : t.regs = s.regs)

theorem stepStores_of_step {s t : State} (stepped : step s = .next t) : StepStores s t := by
  obtain ⟨_, ⟨o, _, rfl⟩ | ⟨g, executed⟩⟩ := step_next stepped
  · exact .nothing rfl rfl
  · cases executed with
    | addressError | jump | noJump | halt | unknown => exact .nothing rfl rfl
    | register d v _ dest => exact .register g d v dest rfl rfl
    | memory a v _ dest => exact .memory g a v dest rfl rfl

/-- Settles O46: a cycle writes one bank at the cell its operation names and leaves the other as it was, or writes neither. -/
theorem stepWritesOnlyTheDestination : Obligations.StepWritesOnlyTheDestination := by
  intro s t stepped
  cases stepStores_of_step stepped with
  | nothing mem regs => simp [mem, regs]
  | register g d v dest mem regs =>
    refine ⟨by simp [mem], fun j changed => ⟨g, fun a => by rw [mem], d, dest, ?_⟩⟩
    rw [regs] at changed
    exact Bank.eq_of_cell_write_ne changed
  | memory g a v dest mem regs =>
    refine ⟨fun c changed => ⟨g, fun j => by rw [regs], a, dest, ?_⟩, by simp [regs]⟩
    rw [mem] at changed
    exact Bank.eq_of_cell_write_ne changed

theorem keepsSet_step {s t : State} (stepped : step s = .next t) : s.mem.KeepsSet t.mem ∧ s.regs.KeepsSet t.regs := by
  cases stepStores_of_step stepped with
  | nothing mem regs => rw [mem, regs]; exact ⟨s.mem.keepsSet_refl, s.regs.keepsSet_refl⟩
  | register g d v dest mem regs => rw [mem, regs]; exact ⟨s.mem.keepsSet_refl, s.regs.keepsSet_write d.toNat v⟩
  | memory g a v dest mem regs => rw [mem, regs]; exact ⟨s.mem.keepsSet_write a.toNat v, s.regs.keepsSet_refl⟩

theorem keepsSet_withBank (s : State) (space : Space) {b : Bank} (h : (bankOf s space).KeepsSet b) :
    s.mem.KeepsSet (withBank s space b).mem ∧ s.regs.KeepsSet (withBank s space b).regs := by
  cases space with
  | memory => exact ⟨h, s.regs.keepsSet_refl⟩
  | register => exact ⟨s.mem.keepsSet_refl, h⟩

/-- Settles O43: a bank changes by the write port alone, which sets a cell and unsets none. -/
theorem setCellsStaySet : Obligations.SetCellsStaySet := by
  have unchanged (s : State) : s.mem.KeepsSet s.mem ∧ s.regs.KeepsSet s.regs := ⟨s.mem.keepsSet_refl, s.regs.keepsSet_refl⟩
  rintro s t (stepped | written | ⟨a, rfl⟩ | rfl)
  · exact keepsSet_step stepped
  · obtain rfl | ⟨space, a, bytes, _, rfl⟩ := afterHostWrite_cases written
    · exact unchanged t
    · exact keepsSet_withBank s space (Bank.keepsSet_writeRun _ a bytes)
  · obtain eq | ⟨_, eq⟩ := setInstructionCounter_cases s a <;> (rw [eq]; exact unchanged s)
  · exact unchanged s

/-! ## The parameters (R12) -/

theorem Executes.params_eq {i : Instr} {s t : State} (e : Executes i s t) : t.params = s.params := by
  cases e <;> rfl

theorem params_step {s t : State} (stepped : step s = .next t) : t.params = s.params := by
  obtain ⟨_, ⟨o, _, rfl⟩ | ⟨_, executed⟩⟩ := step_next stepped
  · rfl
  · exact executed.params_eq

/-- Settles O44, request by request. -/
theorem parametersNeverChange : Obligations.ParametersNeverChange := by
  rintro s t (stepped | written | ⟨a, rfl⟩ | rfl)
  · exact params_step stepped
  · obtain rfl | ⟨space, a, bytes, _, rfl⟩ := afterHostWrite_cases written
    · rfl
    · simp
  · obtain eq | ⟨_, eq⟩ := setInstructionCounter_cases s a <;> simp [eq]
  · rfl

/-! ## What no cycle reads: `report`, and `ir` before the fetch (R25) -/

theorem firstInvalid_withReport (s : State) (o : Option CycleOutcome) (es : List Operand) :
    firstInvalid { s with report := o } es = firstInvalid s es := by
  induction es with
  | nil => rfl
  | cons e rest ih =>
    have valid : operandValid { s with report := o } e = operandValid s e := by
      simp only [operandValid]; cases e.space <;> rfl
    simp only [firstInvalid, valid, ih]

/-- A validated operation ends by writing `report`, so it hides the `report` it began with when its effect does not read it. -/
theorem validated_withReport {s : State} {o : Option CycleOutcome} {es : List Operand} {effect : State → State}
    (blind : answer (effect { s with report := o }) .ok = answer (effect s) .ok) :
    validated { s with report := o } es effect = validated s es effect := by
  simp only [validated, firstInvalid_withReport, blind]
  rfl

theorem readReg_withReport (s : State) (o : Option CycleOutcome) (r : Digit) : readReg { s with report := o } r = readReg s r := rfl

theorem exec_withReport (i : Instr) (s : State) (o : Option CycleOutcome) : exec i { s with report := o } = exec i s := by
  cases i with
  | ld | ldi | st | mov | add | add6 | or | and | xor | ror | halt =>
    simp only [exec, execLd, execLdi, execSt, execMov, execAdd, execAdd6, execOr, execAnd, execXor, execRor, execHalt, aluRst]
    exact validated_withReport rfl
  | jeq r target =>
    simp only [exec, execJeq]
    apply validated_withReport
    by_cases equal : readReg s r = readReg s 0x0#4
    · simp only [readReg_withReport, equal, if_true]; rfl
    · simp only [readReg_withReport, equal, if_false]; rfl
  | unknown0 | unknownD | unknownE | unknownF => rfl

/-- An executed cycle writes `ir` at the fetch and `report` at its end, and reads neither before. -/
theorem step_withHidden {s : State} (w : Word) (o : Option CycleOutcome) (g : gate s = none) :
    step { s with ir := w, report := o } = step s := by
  have sameExec : exec (decode (fetchWord s)) { fetched s with report := o } = exec (decode (fetchWord s)) (fetched s) :=
    exec_withReport _ _ o
  have sameGate : gate { s with ir := w, report := o } = none := g
  simp only [step, g, sameGate]
  split
  · exact sameExec
  · rfl

/-- Settles O47: an executed cycle hides both fields, and a request turned away leaves `ir` and answers with the gate's outcome. -/
theorem hiddenRegisterHasNoEffect : Obligations.HiddenRegisterHasNoEffect := by
  intro s w o
  refine ⟨step_withHidden w o, fun t stepped => ?_⟩
  obtain ⟨legal, ⟨turnedAway, g, rfl⟩ | ⟨g, _⟩⟩ := step_next stepped
  · have sameGate : gate { s with ir := w, report := o } = some turnedAway := g
    exact ⟨answer { s with ir := w, report := o } turnedAway, by simp [step, legal, sameGate], rfl⟩
  · exact ⟨t, (step_withHidden w o g).trans stepped, rfl⟩

end Sys2Proof.Machine
end

section
/-! PROOFS. The statements about storage (spec/20_memory.md): the fetch, the write ports, the host's values and renderings, the host's writes, and
the laws they rest on. -/

namespace Sys2Proof

/-! ## The two bytes of a word (R31, R47) -/

theorem wordOfBytes_toNat (hi lo : Byte) : (wordOfBytes hi lo).toNat = 256 * hi.toNat + lo.toNat := by
  have low : lo.toNat < 2 ^ 8 := lo.isLt
  rw [wordOfBytes, BitVec.toNat_append, ← Nat.shiftLeft_add_eq_or_of_lt low, Nat.shiftLeft_eq]
  omega

theorem opField_toNat (w : Word) : (opField w).toNat = w.toNat / 4096 := by
  have := w.isLt
  simp only [opField, BitVec.extractLsb'_toNat, Nat.shiftRight_eq_div_pow]
  omega

theorem highByte_toNat (w : Word) : (highByte w).toNat = w.toNat / 256 := by
  have := w.isLt
  simp only [highByte, BitVec.extractLsb'_toNat, Nat.shiftRight_eq_div_pow]
  omega

theorem lowByte_toNat (w : Word) : (lowByte w).toNat = w.toNat % 256 := by
  simp only [lowByte, BitVec.extractLsb'_toNat, Nat.shiftRight_zero]

@[simp] theorem highByte_wordOfBytes (hi lo : Byte) : highByte (wordOfBytes hi lo) = hi := by
  apply BitVec.eq_of_toNat_eq
  rw [highByte_toNat, wordOfBytes_toNat]
  omega

@[simp] theorem lowByte_wordOfBytes (hi lo : Byte) : lowByte (wordOfBytes hi lo) = lo := by
  apply BitVec.eq_of_toNat_eq
  rw [lowByte_toNat, wordOfBytes_toNat]
  omega

@[simp] theorem wordOfBytes_highByte_lowByte (w : Word) : wordOfBytes (highByte w) (lowByte w) = w := by
  apply BitVec.eq_of_toNat_eq
  rw [wordOfBytes_toNat, highByte_toNat, lowByte_toNat]
  omega

/-- All sixteen bits of a word's number are the word. -/
@[simp] theorem tableWord_toNat (w : Word) : tableWord 16 w.toNat = w := by
  have fits : w.toNat % 2 ^ 16 = w.toNat := Nat.mod_eq_of_lt w.isLt
  rw [tableWord, fits, BitVec.ofNat_toNat, BitVec.setWidth_eq]

theorem decodeTableWord_toNat (w : Word) : decodeTableWord 16 w.toNat = some (decode w) := by
  simp [decodeTableWord, decodeBytes_pair]

end Sys2Proof

namespace Sys2Proof.Machine

/-! ## The fetch and the write ports (R29, R30, R31, R64) -/

@[simp] theorem highByte_fetchWord (s : State) : highByte (fetchWord s) = s.mem.read s.pc.toNat := highByte_wordOfBytes _ _

@[simp] theorem lowByte_fetchWord (s : State) : lowByte (fetchWord s) = s.mem.read (s.pc.toNat + 1) := lowByte_wordOfBytes _ _

/-- An unset cell reads 0 (R14). -/
theorem Bank.read_of_unset {b : Bank} {a : Nat} (unset : b.cell a = none) : b.read a = 0x00#8 := by
  simp [Bank.read, unset]

theorem Bank.read_of_set {b : Bank} {a : Nat} {v : Byte} (set : b.cell a = some v) : b.read a = v := by
  simp [Bank.read, set]

/-- Settles O7: the word's number is the two cells' numbers put together, and its top digit is the top digit of the first. -/
theorem fetchIsBigEndian : Obligations.FetchIsBigEndian := by
  intro s
  have bytes : (fetchWord s).toNat = 256 * (s.mem.read s.pc.toNat).toNat + (s.mem.read (s.pc.toNat + 1)).toNat :=
    wordOfBytes_toNat _ _
  refine ⟨bytes, ?_⟩
  rw [opField_toNat, bytes]
  omega

/-- Settles O29: the laws of a bank, once for each of the two banks. -/
theorem writtenCellReadsBack : Obligations.WrittenCellReadsBack := by
  intro s r a v
  refine ⟨⟨Bank.read_write_self _ _ v, Bank.cell_write_self _ _ v, ?_, fun _ => rfl⟩,
    ⟨Bank.read_write_self _ _ v, Bank.cell_write_self _ _ v, ?_, fun _ => rfl⟩, Bank.read_of_unset, Bank.read_of_unset⟩
  · exact fun _ ne => Bank.cell_write_of_ne _ v ne
  · exact fun _ ne => Bank.cell_write_of_ne _ v ne

/-! ## A word placed at the counter (R36, R113) -/

@[simp] theorem placeWord_pc (s : State) (w : Word) : (placeWord s w).pc = s.pc := rfl

@[simp] theorem placeWord_mem (s : State) (w : Word) :
    (placeWord s w).mem = (s.mem.write s.pc.toNat (highByte w)).write (s.pc.toNat + 1) (lowByte w) := rfl

@[simp] theorem fetchWord_placeWord (s : State) (w : Word) : fetchWord (placeWord s w) = w := by
  simp [fetchWord, readMem]

/-- Where the two cells exist, the placing is the caller's clearing of `halted` and the two writes. -/
theorem withFetchWord_of_fits {s : State} (w : Word) (fits : s.pc.toNat + 1 < s.params.memSize) :
    s.withFetchWord 16 w.toNat = placeWord (resetHalted s) w := by
  simp [State.withFetchWord, fetchable, fits]

/-- A machine whose gate lets a cycle execute runs the word it fetches (R61). -/
theorem step_of_gate_none {s : State} (legal : s.params.legal = true) (g : gate s = none) :
    step s = exec (decode (fetchWord s)) (fetched s) := by
  simp [step, legal, g]

/-- Settles O9: the placed word is the one the fetch reads, and the placing leaves the gate open. -/
theorem placedWordRunsNext : Obligations.PlacedWordRunsNext := by
  intro s w legal fits t
  have placed : t = placeWord (resetHalted s) w := withFetchWord_of_fits w fits
  rw [placed]
  refine ⟨?_, decodeTableWord_toNat w, fun _ => rfl, rfl, fun a notHigh notLow => ?_⟩
  · have g : gate (placeWord (resetHalted s) w) = none := gate_eq_none_iff.mpr ⟨rfl, fits⟩
    have sameLegal : (placeWord (resetHalted s) w).params.legal = true := legal
    rw [step_of_gate_none sameLegal g, fetchWord_placeWord]
  · simp [notHigh, notLow]

/-! ## A store and the next fetch (R40, R115) -/

/-- ST with its operands there writes the register's value to the cell (R79). -/
theorem exec_st_of_valid {s : State} {r : Digit} {a : Byte} (hasReg : HasReg s r) (hasMem : HasMem s a) :
    exec (.st r a) s = .next (answer (writeMem s a.toNat (readReg s r)) .ok) :=
  validated_of_valid (es := [registerOperand .R r, memoryOperand a]) (fun s => writeMem s a.toNat (readReg s r))
    (by simp [hasReg, hasMem])

/-- Settles O37: both bytes of a fetch are reads of memory, which the store has written whatever the counter is. -/
theorem storedByteIsFetched : Obligations.StoredByteIsFetched := by
  intro s t r a p hasReg hasMem stored
  rw [exec_st_of_valid hasReg hasMem] at stored
  cases stored
  have reads : ∀ c, c = a.toNat → (writeMem s a.toNat (readReg s r)).mem.read c = readReg s r := by
    rintro c rfl
    exact Bank.read_write_self _ _ _
  simp only [highByte_fetchWord, lowByte_fetchWord]
  exact ⟨reads _, reads _, reads _, reads _⟩

/-! ## Host values (R44) -/

/-- A lowercase digit is the character of its value (R45). -/
theorem lowerHexDigits_getElem? {v : Nat} (lt : v < 16) : lowerHexDigits[v]? = some (hexDigitChar v) := by
  have digits : ∀ v < 16, lowerHexDigits[v]? = some (hexDigitChar v) := by decide
  exact digits v lt

/-- The digits of both cases have their places in the lists as values, and no other character has one. -/
theorem hexDigitValue_eq_some_iff {c : Char} {v : Nat} :
    hexDigitValue c = some v ↔ lowerHexDigits[v]? = some c ∨ upperHexDigits[v]? = some c := by
  constructor
  · intro value
    unfold hexDigitValue at value
    split at value
    · next decimal =>
      obtain rfl : c.toNat - 48 = v := by simpa using value
      left
      rw [lowerHexDigits_getElem? (by omega), hexDigitChar, if_pos (by omega), Nat.add_sub_cancel' decimal.1, Char.ofNat_toNat]
    · split at value
      · next lower =>
        obtain rfl : c.toNat - 87 = v := by simpa using value
        left
        rw [lowerHexDigits_getElem? (by omega), hexDigitChar, if_neg (by omega), Nat.add_sub_cancel' (by omega), Char.ofNat_toNat]
      · split at value
        · next upper =>
          obtain rfl : c.toNat - 55 = v := by simpa using value
          have digits : ∀ n < 71, 65 ≤ n → upperHexDigits[n - 55]? = some (Char.ofNat n) := by decide
          right
          rw [digits c.toNat (by omega) upper.1, Char.ofNat_toNat]
        · cases value
  · have lower : ∀ p ∈ lowerHexDigits.zipIdx, hexDigitValue p.1 = some p.2 := by decide
    have upper : ∀ p ∈ upperHexDigits.zipIdx, hexDigitValue p.1 = some p.2 := by decide
    rintro (found | found)
    · exact lower (c, v) (List.mem_zipIdx_iff_getElem?.mpr found)
    · exact upper (c, v) (List.mem_zipIdx_iff_getElem?.mpr found)

theorem hexDigitValue_hexDigitChar {v : Nat} (lt : v < 16) : hexDigitValue (hexDigitChar v) = some v :=
  hexDigitValue_eq_some_iff.mpr (.inl (lowerHexDigits_getElem? lt))

theorem hexDigitChar_mem {v : Nat} (lt : v < 16) : hexDigitChar v ∈ lowerHexDigits :=
  List.mem_of_getElem? (lowerHexDigits_getElem? lt)

theorem hexDigitValue_lt {c : Char} {v : Nat} (value : hexDigitValue c = some v) : v < 16 := by
  obtain found | found := hexDigitValue_eq_some_iff.mp value
  · exact (List.getElem?_eq_some_iff.mp found).1
  · exact (List.getElem?_eq_some_iff.mp found).1

theorem ofNat_eq_byte_iff {n : Nat} {b : Byte} (lt : n < 256) : BitVec.ofNat 8 n = b ↔ b.toNat = n := by
  rw [← BitVec.toNat_inj, BitVec.toNat_ofNat, Nat.mod_eq_of_lt lt, eq_comm]

/-- One character is a byte exactly when it is a digit. -/
theorem parseText_singleton_iff {c : Char} {b : Byte} : parseText [c] = some b ↔ ∃ v, hexDigitValue c = some v ∧ b.toNat = v := by
  cases value : hexDigitValue c with
  | none => simp [parseText, value]
  | some v =>
    have := hexDigitValue_lt value
    simp [parseText, value, ofNat_eq_byte_iff (show v < 256 by omega), eq_comm (a := v)]

/-- Two characters are a byte exactly when both are digits, the first the high one. -/
theorem parseText_pair_iff {c d : Char} {b : Byte} :
    parseText [c, d] = some b ↔ ∃ hi lo, hexDigitValue c = some hi ∧ hexDigitValue d = some lo ∧ b.toNat = 16 * hi + lo := by
  cases high : hexDigitValue c with
  | none => simp [parseText, high]
  | some hi =>
    cases low : hexDigitValue d with
    | none => simp [parseText, high, low]
    | some lo =>
      have := hexDigitValue_lt high
      have := hexDigitValue_lt low
      simp [parseText, high, low, ofNat_eq_byte_iff (show 16 * hi + lo < 256 by omega)]

theorem parseText_eq_some_iff {chars : List Char} {b : Byte} :
    parseText chars = some b ↔
      (∃ c v, chars = [c] ∧ hexDigitValue c = some v ∧ b.toNat = v) ∨
      (∃ c d hi lo, chars = [c, d] ∧ hexDigitValue c = some hi ∧ hexDigitValue d = some lo ∧ b.toNat = 16 * hi + lo) := by
  match chars with
  | [] => simp [parseText]
  | [c] => simp [parseText_singleton_iff]
  | [c, d] => simp [parseText_pair_iff]
  | _ :: _ :: _ :: _ => simp [parseText]

theorem parseValue_number_iff {n : Int} {b : Byte} : parseValue (.number n) = some b ↔ n = b.toNat := by
  have := b.isLt
  by_cases inByte : 0 ≤ n ∧ n ≤ 255
  · simp only [parseValue, inByte, and_self, if_true, Option.some.injEq, ← BitVec.toNat_inj, BitVec.toNat_ofInt]
    omega
  · simp only [parseValue, inByte, if_false, reduceCtorEq, false_iff]
    omega

/-- Settles O32: the texts by their length, the numbers by their range, and the digits of both cases. -/
theorem hostValuesAreHexBytesOrNumbers : Obligations.HostValuesAreHexBytesOrNumbers :=
  ⟨fun _ _ => parseText_eq_some_iff, fun _ _ => parseValue_number_iff, fun _ _ => hexDigitValue_eq_some_iff⟩

/-! ## Renderings and accessors (R45, R46) -/

theorem render_of_lt {space : Space} {s : State} {a : Nat} (lt : a < bankSize s space) :
    render space s a = .ok (renderCell ((bankOf s space).cell a)) := if_pos lt

theorem inspect_of_lt {space : Space} {s : State} {a : Nat} (lt : a < bankSize s space) :
    inspect space s a = .ok ⟨a, ((bankOf s space).cell a).isSome, (bankOf s space).read a, renderCell ((bankOf s space).cell a)⟩ :=
  if_pos lt

/-- The two digits of a rendering read back as the byte (R44, R45). -/
theorem parseText_renderCell (v : Byte) : parseText (renderCell (some v)) = some v := by
  have := v.isLt
  exact parseText_pair_iff.mpr ⟨v.toNat / 16, v.toNat % 16, hexDigitValue_hexDigitChar (by omega),
    hexDigitValue_hexDigitChar (by omega), by omega⟩

/-- Settles O33: by whether the cell is in the bank, and whether it is set. -/
theorem renderingReadsBack : Obligations.RenderingReadsBack := by
  intro s space a
  refine ⟨fun lt v set => ?_, fun lt unset => ?_, fun beyond => ?_⟩
  · have := v.isLt
    refine ⟨hexDigitChar (v.toNat / 16), hexDigitChar (v.toNat % 16), ?_, hexDigitChar_mem (by omega), hexDigitChar_mem (by omega),
      parseText_renderCell v, ?_⟩
    · rw [render_of_lt lt, set]; rfl
    · rw [inspect_of_lt lt, Bank.read_of_set set, set]; rfl
  · constructor
    · rw [render_of_lt lt, unset]; rfl
    · rw [inspect_of_lt lt, Bank.read_of_unset unset, unset]; rfl
  · exact ⟨if_neg (Nat.not_lt.mpr beyond), if_neg (Nat.not_lt.mpr beyond)⟩

/-! ## Host writes (R42, R43) -/

/-- A run of values parses to bytes exactly when each value parses to its byte. -/
theorem parseRun_eq_some_iff {vs : List HostValue} {bytes : List Byte} :
    parseRun vs = some bytes ↔ vs.map parseValue = bytes.map some := by
  induction vs generalizing bytes with
  | nil => cases bytes <;> simp [parseRun]
  | cons v vs ih =>
    cases bytes with
    | nil => simp [parseRun, Option.bind_eq_some_iff]
    | cons b bytes => simp [parseRun, Option.bind_eq_some_iff, ih]

theorem parseRun_eq_none {v : HostValue} {vs : List HostValue} (mem : v ∈ vs) (bad : parseValue v = none) : parseRun vs = none := by
  refine Option.eq_none_iff_forall_ne_some.mpr fun bytes parsed => ?_
  have noneIn : none ∈ bytes.map some := by
    rw [← parseRun_eq_some_iff.mp parsed, ← bad]
    exact List.mem_map_of_mem mem
  simp at noneIn

theorem exists_parseRun {vs : List HostValue} (good : ∀ v ∈ vs, parseValue v ≠ none) : ∃ bytes, parseRun vs = some bytes := by
  induction vs with
  | nil => exact ⟨[], rfl⟩
  | cons v vs ih =>
    obtain ⟨b, first⟩ := Option.ne_none_iff_exists'.mp (good v List.mem_cons_self)
    obtain ⟨bytes, rest⟩ := ih fun u mem => good u (List.mem_cons_of_mem v mem)
    exact ⟨b :: bytes, by simp [parseRun, first, rest]⟩

/-- A run leaves the cells below it and above it alone. -/
theorem Bank.cell_writeRun_outside (b : Bank) {a c : Nat} (vs : List Byte) (outside : c < a ∨ a + vs.length ≤ c) :
    (b.writeRun a vs).cell c = b.cell c := by
  induction vs generalizing b a with
  | nil => rfl
  | cons v vs ih =>
    simp only [List.length_cons] at outside
    rw [Bank.writeRun, ih _ (by omega), Bank.cell_write_of_ne _ _ (by omega)]

/-- A run sets its cells to its values, in order. -/
theorem Bank.cell_writeRun_inside (b : Bank) (a : Nat) (vs : List Byte) {n : Nat} (lt : n < vs.length) :
    (b.writeRun a vs).cell (a + n) = vs[n] := by
  induction vs generalizing b a n with
  | nil => cases lt
  | cons v vs ih =>
    cases n with
    | zero => exact (Bank.cell_writeRun_outside _ vs (by omega)).trans (b.cell_write_self a v)
    | succ n =>
      have rest := ih (b.write a v) (a + 1) (Nat.lt_of_succ_lt_succ lt)
      rw [Nat.add_right_comm] at rest
      exact rest

section
variable {space : Space} {s : State} {a : Nat} {first : HostValue} {more : List HostValue}

theorem writeBank_formatError {v : HostValue} (mem : v ∈ first :: more) (bad : parseValue v = none) :
    writeBank space s a first more = (.formatError, s) := by
  simp [writeBank, parseRun_eq_none mem bad]

/-- A write of good values is the run of their bytes if every cell of it is in the bank, and AddressError otherwise. -/
theorem writeBank_of_good (good : ∀ v ∈ first :: more, parseValue v ≠ none) :
    ∃ bytes, (first :: more).map parseValue = bytes.map some ∧ bytes.length = more.length + 1 ∧
      writeBank space s a first more =
        if a + (more.length + 1) ≤ bankSize s space then (.ok, withBank s space ((bankOf s space).writeRun a bytes))
        else (.addressError, s) := by
  obtain ⟨bytes, parsed⟩ := exists_parseRun good
  have values := parseRun_eq_some_iff.mp parsed
  have length : bytes.length = more.length + 1 := by simpa using (congrArg List.length values).symm
  exact ⟨bytes, values, length, by simp [writeBank, parsed, length]⟩

theorem writeBank_addressError (good : ∀ v ∈ first :: more, parseValue v ≠ none)
    (past : bankSize s space < a + (more.length + 1)) : writeBank space s a first more = (.addressError, s) := by
  obtain ⟨_, _, _, written⟩ := writeBank_of_good (space := space) (s := s) (a := a) good
  rw [written, if_neg (Nat.not_le.mpr past)]

/-- A write that succeeds replaces its bank by one with every cell of the run set to its value and every other cell as it was. -/
theorem writeBank_ok (good : ∀ v ∈ first :: more, parseValue v ≠ none) (fits : a + (more.length + 1) ≤ bankSize s space) :
    ∃ b : Bank, writeBank space s a first more = (.ok, withBank s space b) ∧
      (∀ n (h : n < (first :: more).length), b.cell (a + n) = parseValue ((first :: more)[n])) ∧
      (∀ c, c < a ∨ a + (more.length + 1) ≤ c → b.cell c = (bankOf s space).cell c) := by
  obtain ⟨bytes, values, length, written⟩ := writeBank_of_good (space := space) (s := s) (a := a) good
  refine ⟨_, written.trans (if_pos fits), fun n h => ?_, fun c outside => ?_⟩
  · have lt : n < bytes.length := by simpa [length] using h
    have value : ((first :: more).map parseValue)[n]? = (bytes.map some)[n]? := by rw [values]
    rw [Bank.cell_writeRun_inside _ a bytes lt]
    simpa only [List.getElem?_map, List.getElem?_eq_getElem h, List.getElem?_eq_getElem lt, Option.map_some, Option.some.injEq]
      using value.symm
  · exact Bank.cell_writeRun_outside _ bytes (by rwa [length])

end

/-- Settles O30: the host write on the memory bank. -/
theorem writeMemoryIsAllOrNothing : Obligations.WriteMemoryIsAllOrNothing := by
  intro s a first more
  refine ⟨fun v => writeBank_formatError, fun good past => writeBank_addressError good past, fun good fits => ?_⟩
  obtain ⟨b, written, inside, outside⟩ := writeBank_ok (space := .memory) good fits
  exact ⟨_, written, inside, outside, fun _ => rfl, ⟨rfl, rfl, rfl, rfl⟩, rfl⟩

/-- Settles O31: the host write on the register bank. -/
theorem writeRegisterIsAllOrNothing : Obligations.WriteRegisterIsAllOrNothing := by
  intro s a first more
  refine ⟨fun v => writeBank_formatError, fun good past => writeBank_addressError good past, fun good fits => ?_⟩
  obtain ⟨b, written, inside, outside⟩ := writeBank_ok (space := .register) good fits
  exact ⟨_, written, inside, outside, fun _ => rfl, ⟨rfl, rfl, rfl, rfl⟩, rfl⟩

/-! ## The invariant under the caller's requests (R19, R28) -/

@[simp] theorem inv_resetHalted (s : State) : (resetHalted s).inv = s.inv := rfl

theorem bankOf_wf {s : State} (space : Space) (h : s.inv = true) : (bankOf s space).wf (bankSize s space) = true := by
  obtain ⟨_, memWf, regsWf, _⟩ := State.inv_iff.mp h
  cases space with
  | memory => exact memWf
  | register => exact regsWf

theorem inv_withBank {s : State} {space : Space} {b : Bank} (wf : b.wf (bankSize s space) = true) (h : s.inv = true) :
    (withBank s space b).inv = true := by
  obtain ⟨legal, memWf, regsWf, pcLe⟩ := State.inv_iff.mp h
  cases space with
  | memory => exact State.inv_iff.mpr ⟨legal, wf, regsWf, pcLe⟩
  | register => exact State.inv_iff.mpr ⟨legal, memWf, wf, pcLe⟩

theorem inv_afterHostWrite {s t : State} (written : AfterHostWrite s t) (h : s.inv = true) : t.inv = true := by
  obtain rfl | ⟨space, a, bytes, fits, rfl⟩ := afterHostWrite_cases written
  · exact h
  · exact inv_withBank (Bank.wf_writeRun bytes fits (bankOf_wf space h)) h

theorem inv_setInstructionCounter {s : State} (a : Nat) (h : s.inv = true) : (setInstructionCounter s a).2.inv = true := by
  obtain eq | ⟨inside, eq⟩ := setInstructionCounter_cases s a
  · rwa [eq]
  · obtain ⟨legal, _⟩ := State.inv_iff.mp h
    obtain ⟨_, memLe, _⟩ := Params.legal_iff.mp legal
    have target : (BitVec.ofNat 9 a).toNat ≤ 256 := by
      rw [BitVec.toNat_ofNat]; omega
    rw [eq]
    exact inv_setPc target h

/-- Settles O42, request by request. -/
theorem hostRequestsKeepTheInvariant : Obligations.HostRequestsKeepTheInvariant := by
  rintro s t h (written | ⟨a, rfl⟩ | rfl)
  · exact inv_afterHostWrite written h
  · exact inv_setInstructionCounter a h
  · simpa [clearHalted] using h

end Sys2Proof.Machine
end

section
/-! PROOFS. The statements about the encoding (spec/30_encoding.md, spec/60_exceptions.md rule R98) and the laws they rest on: the fields of a word built from
an opcode digit and what follows it, and a word built again from its fields. -/

namespace Sys2Proof

/-! ## The fields of a word built from its parts (R48) -/

@[simp] theorem opField_append_rest (op : Digit) (rest : BitVec 12) : opField (op ++ rest : Word) = op :=
  BitVec.extractLsb'_append_eq_left

@[simp] theorem restField_append_rest (op : Digit) (rest : BitVec 12) : restField (op ++ rest : Word) = rest :=
  BitVec.extractLsb'_append_eq_right

/-- The operand digits lie in the twelve bits below the opcode digit. -/
theorem d1Field_append_rest (op : Digit) (rest : BitVec 12) : d1Field (op ++ rest : Word) = rest.extractLsb' 8 4 :=
  BitVec.extractLsb'_append_eq_of_add_le (by decide)

theorem d2Field_append_rest (op : Digit) (rest : BitVec 12) : d2Field (op ++ rest : Word) = rest.extractLsb' 4 4 :=
  BitVec.extractLsb'_append_eq_of_add_le (by decide)

theorem d3Field_append_rest (op : Digit) (rest : BitVec 12) : d3Field (op ++ rest : Word) = rest.extractLsb' 0 4 :=
  BitVec.extractLsb'_append_eq_of_add_le (by decide)

@[simp] theorem opField_append_byte (op a : Digit) (xy : Byte) : opField (op ++ a ++ xy : Word) = op :=
  (BitVec.extractLsb'_append_eq_of_le (by decide)).trans BitVec.extractLsb'_append_eq_left

@[simp] theorem d1Field_append_byte (op a : Digit) (xy : Byte) : d1Field (op ++ a ++ xy : Word) = a :=
  (BitVec.extractLsb'_append_eq_of_le (by decide)).trans BitVec.extractLsb'_append_eq_right

@[simp] theorem xyField_append_byte (op a : Digit) (xy : Byte) : xyField (op ++ a ++ xy : Word) = xy :=
  BitVec.extractLsb'_append_eq_right

/-! ## The fields of a word by arithmetic on its number (R48) -/

theorem d1Field_eq_ofNat (w : Word) : d1Field w = BitVec.ofNat 4 (w.toNat / 256) := by
  simp only [d1Field, BitVec.extractLsb', Nat.shiftRight_eq_div_pow, Nat.reducePow]

theorem d2Field_eq_ofNat (w : Word) : d2Field w = BitVec.ofNat 4 (w.toNat / 16) := by
  simp only [d2Field, BitVec.extractLsb', Nat.shiftRight_eq_div_pow, Nat.reducePow]

theorem d3Field_eq_ofNat (w : Word) : d3Field w = BitVec.ofNat 4 w.toNat := rfl

theorem xyField_eq_ofNat (w : Word) : xyField w = BitVec.ofNat 8 w.toNat := rfl

theorem restField_eq_ofNat (w : Word) : restField w = BitVec.ofNat 12 w.toNat := rfl

/-! ## Decoding an encoding (R53, R57, R58) -/

/-- `4*RS`: digit 1 is not decoded (R55). -/
theorem decode_mov_word (g a b : Digit) : decode (0x4#4 ++ g ++ a ++ b) = .mov a b := by
  simp [decode]

/-- `AR*X`: digit 2 is not decoded (R55). -/
theorem decode_ror_word (g a b : Digit) : decode (0xA#4 ++ a ++ g ++ b) = .ror a b := by
  simp [decode]

/-- `C***`: no digit after the opcode is decoded (R55). -/
theorem decode_halt_word (y : BitVec 12) : decode (0xC#4 ++ y) = .halt := by
  simp [decode]

theorem decode_encode (i : Instr) : decode (encode i) = i := by
  cases i with
  | ld | ldi | st | jeq | add | add6 | or | and | xor => simp [encode, decode]
  | mov a b => exact decode_mov_word 0x0#4 a b
  | ror a b => exact decode_ror_word 0x0#4 a b
  | halt => exact decode_halt_word 0x000#12
  | unknown0 | unknownD | unknownE | unknownF => simp [encode, decode]

/-- Settles O1: the two cells of a word put together are the word, so the second clause is the first. -/
theorem decodeInvertsEncode : Obligations.DecodeInvertsEncode := by
  intro i
  refine ⟨decode_encode i, ?_⟩
  rw [encodeBytes, decodeBytes_pair, wordOfBytes_highByte_lowByte, decode_encode]

/-! ## A word built again from its fields (R48) -/

theorem d2Field_append_d3Field (w : Word) : (d2Field w ++ d3Field w : Byte) = xyField w :=
  BitVec.extractLsb'_append_extractLsb'_eq_extractLsb' rfl

theorem d1Field_append_xyField (w : Word) : (d1Field w ++ xyField w : BitVec 12) = restField w :=
  BitVec.extractLsb'_append_extractLsb'_eq_extractLsb' rfl

theorem opField_append_restField (w : Word) : (opField w ++ restField w : Word) = w :=
  BitVec.extractLsb'_append_extractLsb'

theorem opField_append_d1Field_append_xyField (w : Word) : (opField w ++ d1Field w ++ xyField w : Word) = w := by
  rw [BitVec.append_assoc, d1Field_append_xyField]
  exact opField_append_restField w

theorem opField_append_digits (w : Word) : (opField w ++ d1Field w ++ d2Field w ++ d3Field w : Word) = w := by
  rw [BitVec.append_assoc, d2Field_append_d3Field]
  exact opField_append_d1Field_append_xyField w

/-- A mask acts on a word digit by digit. -/
theorem and_digits (w : Word) (m₀ m₁ m₂ m₃ : Digit) :
    w &&& (m₀ ++ m₁ ++ m₂ ++ m₃ : Word) = (opField w &&& m₀) ++ (d1Field w &&& m₁) ++ (d2Field w &&& m₂) ++ (d3Field w &&& m₃) := by
  conv_lhs => rw [← opField_append_digits w]
  rw [BitVec.and_append, BitVec.and_append, BitVec.and_append]

/-! ## The words of one opcode, whole and under the masks of its ignored digits (R49, R55) -/

theorem and_allOnes_digit (a : Digit) : a &&& 0xF#4 = a := BitVec.and_allOnes

theorem and_allDigits (w : Word) : w &&& 0xFFFF#16 = w := BitVec.and_allOnes

section
variable {w : Word} {op : Digit}

theorem append_restField_of_op (h : (opField w).toNat = op.toNat) : (op ++ restField w : Word) = w := by
  rw [← BitVec.eq_of_toNat_eq h, opField_append_restField]

theorem append_byte_of_op (h : (opField w).toNat = op.toNat) : (op ++ d1Field w ++ xyField w : Word) = w := by
  rw [← BitVec.eq_of_toNat_eq h, opField_append_d1Field_append_xyField]

theorem append_digits_of_op (h : (opField w).toNat = op.toNat) : (op ++ d1Field w ++ d2Field w ++ d3Field w : Word) = w := by
  rw [← BitVec.eq_of_toNat_eq h, opField_append_digits]

theorem append_ignoring_d1_of_op (h : (opField w).toNat = op.toNat) :
    (op ++ 0x0#4 ++ d2Field w ++ d3Field w : Word) = w &&& 0xF0FF#16 := by
  have mask : w &&& 0xF0FF#16 = _ := and_digits w 0xF#4 0x0#4 0xF#4 0xF#4
  rw [mask, and_allOnes_digit, and_allOnes_digit, and_allOnes_digit, BitVec.and_zero, BitVec.eq_of_toNat_eq h]

theorem append_ignoring_d2_of_op (h : (opField w).toNat = op.toNat) :
    (op ++ d1Field w ++ 0x0#4 ++ d3Field w : Word) = w &&& 0xFF0F#16 := by
  have mask : w &&& 0xFF0F#16 = _ := and_digits w 0xF#4 0xF#4 0x0#4 0xF#4
  rw [mask, and_allOnes_digit, and_allOnes_digit, and_allOnes_digit, BitVec.and_zero, BitVec.eq_of_toNat_eq h]

theorem append_ignoring_rest_of_op (h : (opField w).toNat = op.toNat) : (op ++ 0x000#12 : Word) = w &&& 0xF000#16 := by
  rw [← Laws.EncodeMatchesTable.mask_append op (restField w), append_restField_of_op h]

end

/-- The fields that `encode` puts together, opcode by opcode in the order of R49: 0; 1 to 3; 4; 5 to 9; 10; 11; 12; 13 to 15. -/
theorem encode_decode (w : Word) :
    encode (decode w) =
      w &&& (if (opField w).toNat = 4 then 0xF0FF#16 else if (opField w).toNat = 10 then 0xFF0F#16
        else if (opField w).toNat = 12 then 0xF000#16 else 0xFFFF#16) := by
  have lt : (opField w).toNat < 16 := (opField w).isLt
  interval_cases op : (opField w).toNat <;>
    simp only [decode, op, encode, Nat.reduceEqDiff, OfNat.zero_ne_ofNat, OfNat.one_ne_ofNat, if_true, if_false, and_allDigits]
  · exact append_restField_of_op op
  iterate 3 exact append_byte_of_op op
  · exact append_ignoring_d1_of_op op
  iterate 5 exact append_digits_of_op op
  · exact append_ignoring_d2_of_op op
  · exact append_byte_of_op op
  · exact append_ignoring_rest_of_op op
  iterate 3 exact append_restField_of_op op

end Sys2Proof

namespace Sys2Proof.Machine

/-- Settles O3: the words that differ in an ignored digit decode to one instruction. -/
theorem ignoredDigitsHaveNoEffect : Obligations.IgnoredDigitsHaveNoEffect := by
  intro g h a b y z s
  simp only [decode_mov_word, decode_ror_word, decode_halt_word, true_and, encode, d1Field_append, d2Field_append,
    restField_append_rest]

/-- Settles O2: `encode_decode` with the opcode digit as the quotient of the word's number. -/
theorem encodeInvertsDecodeUpToIgnoredDigits : Obligations.EncodeInvertsDecodeUpToIgnoredDigits := by
  intro w
  rw [← opField_toNat]
  exact encode_decode w

/-- Settles O5: in the fields' own names each clause is an arm of `decode`. -/
theorem topDigitSelectsTheOperation : Obligations.TopDigitSelectsTheOperation := by
  intro w
  simp only [← opField_toNat, ← d1Field_eq_ofNat, ← d2Field_eq_ofNat, ← d3Field_eq_ofNat, ← xyField_eq_ofNat, ← restField_eq_ofNat]
  refine ⟨(opField w).isLt, ?_⟩
  and_intros <;> (intro op; simp only [decode, op])

/-- Settles O4: nine closed words. -/
theorem specWordsDecode : Obligations.SpecWordsDecode := by
  unfold Obligations.SpecWordsDecode; decide

/-- The handlers of opcodes 5 and 6 are one shared operation (R88). -/
theorem exec_add6_eq_exec_add (r a b : Digit) (s : State) : exec (.add6 r a b) s = exec (.add r a b) s := rfl

/-- Settles O6: the two words hold the same operand digits, which are read from the twelve bits they share. -/
theorem opcodeSixRunsAsOpcodeFive : Obligations.OpcodeSixRunsAsOpcodeFive := by
  intro rest s
  have six : decode (0x6#4 ++ rest) = .add6 (rest.extractLsb' 8 4) (rest.extractLsb' 4 4) (rest.extractLsb' 0 4) := by
    simp [decode, d1Field_append_rest, d2Field_append_rest, d3Field_append_rest]
  have five : decode (0x5#4 ++ rest) = .add (rest.extractLsb' 8 4) (rest.extractLsb' 4 4) (rest.extractLsb' 0 4) := by
    simp [decode, d1Field_append_rest, d2Field_append_rest, d3Field_append_rest]
  rw [six, five, exec_add6_eq_exec_add]

/-- Settles O27: the four handlers are one shared report, which touches no other field. -/
theorem unknownOpcodesOnlyReport : Obligations.UnknownOpcodesOnlyReport := by
  intro s rest
  have reports {i : Instr} {op : Digit} (run : exec i s = .next (reportUnknownOpcode s op rest)) (word : encode i = op ++ rest) :
      ∃ t, exec i s = .next t ∧ t.report = some (.unknownOpcode op (op ++ rest)) ∧
        encode i = op ++ rest ∧ SameRegisters s t ∧ SameMemory s t ∧ SameControl s t :=
    ⟨_, run, rfl, word, fun _ => rfl, fun _ => rfl, rfl, rfl, rfl, rfl⟩
  simp only [List.forall_mem_cons]
  exact ⟨reports rfl rfl, reports rfl rfl, reports rfl rfl, reports rfl rfl, List.forall_mem_nil _⟩

end Sys2Proof.Machine
end

section
/-! PROOFS. The statements about the cycle and its dispatch, the control requests and `run()` (spec/40_cycle_and_dispatch.md), and the laws they
rest on: which operands an operation checks, what a cycle reports, and what a pass of a run keeps. -/

namespace Sys2Proof.Machine

/-! ## The cycle (R61, R65, R69) -/

/-- Where both cells of the word are in memory the advance does not wrap (R63, R65). -/
theorem pc_advance_toNat {s : State} (legal : s.params.legal = true) (fits : s.pc.toNat + 1 < s.params.memSize) :
    (s.pc + 2#9).toNat = s.pc.toNat + 2 := by
  obtain ⟨_, memLe, _⟩ := Params.legal_iff.mp legal
  rw [BitVec.toNat_add, BitVec.toNat_ofNat]
  omega

/-- Settles O8: the gate is open, and the two cells are the word the fetch puts into `ir`. -/
theorem stepRunsTheDecodedInstruction : Obligations.StepRunsTheDecodedInstruction := by
  intro s i legal running fits decoded
  obtain ⟨_, memLe, _⟩ := Params.legal_iff.mp legal
  have isInstr : decode (fetchWord s) = i := by
    rw [decodeBytes_pair] at decoded
    cases decoded
    rfl
  have advance := pc_advance_toNat legal fits
  refine ⟨?_, advance, by omega⟩
  rw [step_of_gate_none legal (gate_eq_none_iff.mpr ⟨running, fits⟩), isInstr]
  rfl

/-- Settles O13: the inversion of `exec` for the instructions, and `step_cases` for the machines. -/
theorem everyMachineAlwaysSteps : Obligations.EveryMachineAlwaysSteps := by
  have answers (i : Instr) (s : State) : ∃ t, exec i s = .next t := (exec_executes i s).imp fun _ done => done.1
  refine ⟨answers, fun s => ⟨fun ⟨_, stepped⟩ => (step_next stepped).1, fun legal => ?_⟩⟩
  obtain ⟨illegal, _⟩ | ⟨_, o, _, eq⟩ | ⟨_, _, eq⟩ := step_cases s
  · rw [legal] at illegal; cases illegal
  · exact ⟨_, eq⟩
  · rw [eq]; exact answers _ _

/-! ## Validation (R68) -/

/-- The operands an operation validates, in the order of the table of R68. -/
def operands : Instr → List Operand
  | .ld r addr => [registerOperand .R r, memoryOperand addr]
  | .ldi r _ => [registerOperand .R r]
  | .st r addr => [registerOperand .R r, memoryOperand addr]
  | .mov r s => [registerOperand .R r, registerOperand .S s]
  | .add r s t => [registerOperand .R r, registerOperand .S s, registerOperand .T t]
  | .add6 r s t => [registerOperand .R r, registerOperand .S s, registerOperand .T t]
  | .or r s t => [registerOperand .R r, registerOperand .S s, registerOperand .T t]
  | .and r s t => [registerOperand .R r, registerOperand .S s, registerOperand .T t]
  | .xor r s t => [registerOperand .R r, registerOperand .S s, registerOperand .T t]
  | .ror r x => [registerOperand .R r, registerOperand .X x]
  | .jeq r _ => [registerOperand .R r]
  | .halt => []
  | .unknown0 _ => []
  | .unknownD _ => []
  | .unknownE _ => []
  | .unknownF _ => []

/-- An operation whose operands do not all exist reports the first that does not (R68, R97). -/
theorem exec_of_firstInvalid {i : Instr} {s : State} {e : Operand} (first : firstInvalid s (operands i) = some e) :
    exec i s = .next (answer s (.addressError e)) := by
  cases i with
  | ld | ldi | st | mov | add | add6 | or | and | xor | ror | jeq => apply validated_of_invalid; exact first
  | halt | unknown0 | unknownD | unknownE | unknownF => cases first

theorem firstInvalid_append_cons {s : State} {before after : List Operand} {e : Operand}
    (valid : ∀ d ∈ before, operandValid s d = true) (bad : operandValid s e = false) :
    firstInvalid s (before ++ e :: after) = some e := by
  induction before with
  | nil => simp [firstInvalid, bad]
  | cons d before ih =>
    obtain ⟨validHead, validTail⟩ := List.forall_mem_cons.mp valid
    simp [firstInvalid, validHead, ih validTail]

/-- Settles O28: in each clause the operand named stands in the table of R68 after operands that exist. -/
theorem firstBadOperandIsReported : Obligations.FirstBadOperandIsReported := by
  intro s r a b xy fails
  have reports {i : Instr} (before : List Operand) {e : Operand} (after : List Operand) (table : operands i = before ++ e :: after)
      (valid : ∀ d ∈ before, operandValid s d = true) (bad : operandValid s e = false) : fails i e.space e.letter e.value :=
    exec_of_firstInvalid (table ▸ firstInvalid_append_cons valid bad)
  have first {i : Instr} {after : List Operand} (table : operands i = registerOperand .R r :: after) (noR : ¬ HasReg s r) :
      fails i .register .R (r.setWidth 8) :=
    reports [] after table (by simp) (by simpa using noR)
  have second {i : Instr} {e : Operand} {after : List Operand} (table : operands i = registerOperand .R r :: e :: after)
      (hasR : HasReg s r) (bad : operandValid s e = false) : fails i e.space e.letter e.value :=
    reports [registerOperand .R r] after table (by simpa using hasR) bad
  have secondRegister {i : Instr} {l : Letter} {after : List Operand}
      (table : operands i = registerOperand .R r :: registerOperand l a :: after) (hasR : HasReg s r) (noA : ¬ HasReg s a) :
      fails i .register l (a.setWidth 8) :=
    second table hasR (by simpa using noA)
  have withAddress {i : Instr} (table : operands i = [registerOperand .R r, memoryOperand xy]) :
      (¬ HasReg s r → fails i .register .R (r.setWidth 8)) ∧ (HasReg s r → ¬ HasMem s xy → fails i .memory .XY xy) :=
    ⟨first table, fun hasR noCell => second table hasR (by simpa using noCell)⟩
  have withRst {i : Instr} (table : operands i = [registerOperand .R r, registerOperand .S a, registerOperand .T b]) :
      (¬ HasReg s r → fails i .register .R (r.setWidth 8)) ∧
      (HasReg s r → ¬ HasReg s a → fails i .register .S (a.setWidth 8)) ∧
      (HasReg s r → HasReg s a → ¬ HasReg s b → fails i .register .T (b.setWidth 8)) :=
    ⟨first table, secondRegister table, fun hasR hasA noB =>
      reports [registerOperand .R r, registerOperand .S a] [] table (by simp [hasR, hasA]) (by simpa using noB)⟩
  simp only [List.forall_mem_cons]
  exact ⟨⟨withAddress rfl, withAddress rfl, List.forall_mem_nil _⟩, ⟨first rfl, first rfl, List.forall_mem_nil _⟩,
    first rfl, secondRegister rfl,
    ⟨withRst rfl, withRst rfl, withRst rfl, withRst rfl, withRst rfl, List.forall_mem_nil _⟩,
    first rfl, secondRegister rfl, _, rfl, rfl⟩

/-! ## set_instruction_counter (R70) -/

/-- Settles O34: the counter holds every address below N, since N is at most 256. -/
theorem setInstructionCounterMovesOnlyTheCounter : Obligations.SetInstructionCounterMovesOnlyTheCounter := by
  intro s a legal
  obtain ⟨_, memLe, _⟩ := Params.legal_iff.mp legal
  refine ⟨fun inside => ⟨setPc s (BitVec.ofNat 9 a), if_pos inside, ?_, rfl, rfl⟩, fun outside => if_neg (Nat.not_lt.mpr outside)⟩
  rw [setPc_pc, BitVec.toNat_ofNat]
  omega

/-! ## What a cycle reports (R96, R102) -/

/-- An executed cycle reports OK, or it reports an error and leaves `halted`. -/
theorem Executes.report_cases {i : Instr} {s t : State} (executed : Executes i s t) :
    t.report = some .ok ∨
    (t.halted = s.halted ∧ ((∃ e, t.report = some (.addressError e)) ∨ ∃ op w, t.report = some (.unknownOpcode op w))) := by
  cases executed with
  | addressError e => exact .inr ⟨rfl, .inl ⟨e, rfl⟩⟩
  | register | memory | jump | noJump | halt => exact .inl rfl
  | unknown op rest => exact .inr ⟨rfl, .inr ⟨op, op ++ rest, rfl⟩⟩

/-- A cycle request by its outcome: turned away by one of the two gates, or executed with one of the three outcomes of R61. -/
inductive Cycle (s t : State) : CycleOutcome → Prop where
  | notRunHalted (halted : s.halted = true) (same : t = answer s .notRunHalted) : Cycle s t .notRunHalted
  | endOfProgram (running : s.halted = false) (past : ¬ s.pc.toNat + 1 < s.params.memSize) (same : t = answer s .endOfProgram) :
      Cycle s t .endOfProgram
  | ok (running : s.halted = false) : Cycle s t .ok
  | addressError (e : Operand) (stays : t.halted = false) : Cycle s t (.addressError e)
  | unknownOpcode (op : Digit) (w : Word) (stays : t.halted = false) : Cycle s t (.unknownOpcode op w)

/-- Every step leaves the outcome of its cycle in `report`. -/
theorem step_cycle {s t : State} (stepped : step s = .next t) : ∃ o, t.report = some o ∧ Cycle s t o := by
  obtain ⟨_, ⟨o, g, rfl⟩ | ⟨g, executed⟩⟩ := step_next stepped
  · refine ⟨o, rfl, ?_⟩
    obtain ⟨halted, g'⟩ | ⟨running, past, g'⟩ | ⟨_, _, g'⟩ := gate_cases s
    · rw [g'] at g; cases g; exact .notRunHalted halted rfl
    · rw [g'] at g; cases g; exact .endOfProgram running past rfl
    · rw [g'] at g; cases g
  · obtain ⟨running, _⟩ := gate_eq_none_iff.mp g
    obtain ok | ⟨same, ⟨e, erred⟩ | ⟨op, w, unknown⟩⟩ := executed.report_cases
    · exact ⟨_, ok, .ok running⟩
    · exact ⟨_, erred, .addressError e (same.trans running)⟩
    · exact ⟨_, unknown, .unknownOpcode op w (same.trans running)⟩

/-! ## One pass of a run (R73, R74) -/

/-- A pass within the budget is one cycle request. -/
theorem runPass_of_step {rs : RunState} {t : State} {o : CycleOutcome} (running : rs.stop = none)
    (budget : rs.machine.params.runBudget ≠ some rs.count) (stepped : step rs.machine = .next t) (report : t.report = some o) :
    runPass rs = .next (afterCycle rs t o) := by
  simp [runPass, running, budget, stepped, report]

/-- Everything the test after a cycle without an error can say (R73). -/
theorem guardedStop_cases (s : State) :
    (s.halted = true ∧ guardedStop s = some .halted) ∨
    (s.halted = false ∧ runContinue s = true ∧ guardedStop s = none) ∨
    (s.halted = false ∧ runContinue s = false ∧ fetchable s = true ∧ guardedStop s = some .guardStop) ∨
    (s.halted = false ∧ runContinue s = false ∧ fetchable s = false ∧ guardedStop s = some .endOfProgram) := by
  cases halted : s.halted with
  | true => exact .inl ⟨rfl, by simp [guardedStop, halted]⟩
  | false =>
    cases goesOn : runContinue s with
    | true => exact .inr (.inl ⟨rfl, rfl, by simp [guardedStop, halted, goesOn]⟩)
    | false => cases fits : fetchable s <;> simp [guardedStop, halted, goesOn, fits]

theorem guardedStop_eq_none_iff {s : State} : guardedStop s = none ↔ s.halted = false ∧ runContinue s = true := by
  obtain ⟨halted, eq⟩ | ⟨halted, goesOn, eq⟩ | ⟨_, goesOn, _, eq⟩ | ⟨_, goesOn, _, eq⟩ := guardedStop_cases s
  · simp [eq, halted]
  · simp [eq, halted, goesOn]
  · simp [eq, goesOn]
  · simp [eq, goesOn]

/-- A run goes on only after an executed cycle, and then by the guard. -/
theorem stopAfter_eq_none {s : State} {o : CycleOutcome} (goesOn : stopAfter s o = none) :
    o.executed = true ∧ guardedStop s = none := by
  cases o with
  | notRunHalted | endOfProgram | addressError => cases goesOn
  | ok | unknownOpcode => exact ⟨rfl, goesOn⟩

theorem runContinue_of_fetchable {s : State} (mode : s.params.runContinue = .fetchable) : runContinue s = fetchable s := by
  simp [runContinue, fetchable, mode]

theorem fetchable_iff {s : State} : fetchable s = true ↔ s.pc.toNat + 1 < s.params.memSize := decide_eq_true_iff

/-- The two guards differ only where the word at `pc` fits and the next does not. -/
theorem threeAhead_of_guardStop {s : State} (stops : runContinue s = false) (fits : fetchable s = true) :
    s.params.runContinue = .threeAhead ∧ ¬ s.pc.toNat + 3 < s.params.memSize := by
  cases mode : s.params.runContinue with
  | fetchable => rw [runContinue_of_fetchable mode, fits] at stops; cases stops
  | threeAhead => exact ⟨rfl, by simpa [runContinue, mode] using stops⟩

/-- A guard that is the fetch check cannot stop a cycle that would execute (R74). -/
theorem guardedStop_ne_guardStop {s : State} (guard : runContinue s = fetchable s) : guardedStop s ≠ some .guardStop := by
  rw [guardedStop, guard]
  cases s.halted with
  | true => simp
  | false => cases fetchable s <;> simp

/-- Settles O51: the guard of FETCHABLE is `fetchable`, which with RUNNING is the open gate. -/
theorem fetchableGuardRepeatsTheFetchCheck : Obligations.FetchableGuardRepeatsTheFetchCheck := by
  intro rs rs' mode running budget passed
  obtain ⟨stopped, _⟩ | ⟨_, atBudget, _⟩ | ⟨_, _, t, stepped, rfl⟩ := runPass_cases passed
  · simp [running] at stopped
  · exact absurd atBudget budget
  have guard : runContinue t = fetchable t := runContinue_of_fetchable (by rw [params_step stepped, mode])
  obtain ⟨o, report, _⟩ := step_cycle stepped
  rw [report, Option.getD_some]
  constructor
  · intro goesOn
    obtain ⟨halted, continues⟩ := guardedStop_eq_none_iff.mp (stopAfter_eq_none goesOn).2
    exact gate_eq_none_iff.mpr ⟨halted, fetchable_iff.mp (guard ▸ continues)⟩
  · cases o with
    | notRunHalted | endOfProgram | addressError => simp [afterCycle, stopAfter]
    | ok | unknownOpcode => exact guardedStop_ne_guardStop guard

/-- Settles O50: a cycle that reports an unknown opcode leaves the machine RUNNING, so with the guard the run goes on. -/
theorem unknownOpcodeDoesNotStopARun : Obligations.UnknownOpcodeDoesNotStopARun := by
  intro rs t op w running budget stepped report continues
  obtain ⟨o, report', cycle⟩ := step_cycle stepped
  rw [report] at report'
  cases report'
  cases cycle with
  | unknownOpcode _ _ stays =>
    have goesOn : stopAfter t (.unknownOpcode op w) = none := guardedStop_eq_none_iff.mpr ⟨stays, continues⟩
    rw [runPass_of_step running budget stepped report, afterCycle, goesOn]
    rfl

/-! ## What the passes of a run keep -/

/-- What every pass keeps, every run keeps. -/
theorem runFor_keeps {P : RunState → Prop} (keeps : ∀ {rs rs'}, P rs → runPass rs = .next rs' → P rs') (k : Nat) :
    ∀ {rs rs'}, P rs → runFor k rs = .next rs' → P rs' := by
  induction k with
  | zero => intro rs rs' h ran; cases ran; exact h
  | succ k ih =>
    intro rs rs' h ran
    rw [runFor] at ran
    split at ran
    · next passed => exact ih (keeps h passed) ran
    · cases ran
    · cases ran

/-- `s` as a run requested while it is HALTED may leave it (R62). -/
def HeldHalted (s : State) (rs : RunState) : Prop := rs.count = 0 ∧ (rs.machine = s ∨ rs.machine = answer s .notRunHalted)

theorem HeldHalted.halted {s : State} {rs : RunState} (held : HeldHalted s rs) (halted : s.halted = true) : rs.machine.halted = true := by
  obtain ⟨_, eq | eq⟩ := held <;> rw [eq] <;> exact halted

theorem heldHalted_runPass {s : State} (halted : s.halted = true) {rs rs' : RunState} (held : HeldHalted s rs)
    (passed : runPass rs = .next rs') : HeldHalted s rs' := by
  obtain ⟨_, rfl⟩ | ⟨_, _, rfl⟩ | ⟨_, _, t, stepped, rfl⟩ := runPass_cases passed
  · exact held
  · exact held
  · obtain rfl := step_of_halted stepped (held.halted halted)
    obtain ⟨count, eq | eq⟩ := held <;> exact ⟨count, .inr (by rw [eq]; rfl)⟩

theorem runFor_of_halted {s : State} (halted : s.halted = true) {k : Nat} {rs : RunState} (ran : runFor k (runStart s) = .next rs) :
    HeldHalted s rs :=
  runFor_keeps (heldHalted_runPass halted) k ⟨rfl, .inl rfl⟩ ran

theorem step_halted {s : State} (legal : s.params.legal = true) (halted : s.halted = true) : step s = .next (answer s .notRunHalted) := by
  simp [step, legal, gate_of_halted halted]

/-- Settles O10: the gate turns every request away, so no pass counts a cycle. -/
theorem haltedMachineRunsNoCycle : Obligations.HaltedMachineRunsNoCycle := by
  intro s legal halted
  have stepped := step_halted legal halted
  refine ⟨stepped, fun k rs => runFor_of_halted halted, fun budget => ?_⟩
  refine ⟨afterCycle (runStart s) (answer s .notRunHalted) .notRunHalted, ?_, rfl, rfl, rfl⟩
  rw [runFor, runPass_of_step rfl budget stepped rfl]
  rfl

/-- Settles O35: a step from HALTED is turned away, and the host's writes and the counter request leave `halted`. -/
theorem clearHaltedIsTheOnlyWayOut : Obligations.ClearHaltedIsTheOnlyWayOut := by
  intro s
  refine ⟨⟨_, rfl, rfl⟩, ?_, fun halted k rs ran => (runFor_of_halted halted ran).halted halted⟩
  rintro halted t (stepped | written | ⟨a, rfl⟩)
  · rw [step_of_halted stepped halted]; exact halted
  · rw [halted_afterHostWrite written]; exact halted
  · rw [halted_setInstructionCounter]; exact halted

/-! ## The budget (R75) -/

theorem afterCycle_count_le (rs : RunState) (t : State) (o : CycleOutcome) : (afterCycle rs t o).count ≤ rs.count + 1 := by
  simp only [afterCycle]
  split <;> omega

/-- A run that goes on has counted its cycle. -/
theorem afterCycle_count_of_running {rs : RunState} {t : State} {o : CycleOutcome} (goesOn : (afterCycle rs t o).stop = none) :
    (afterCycle rs t o).count = rs.count + 1 :=
  if_pos (stopAfter_eq_none goesOn).1

/-- With `k` cycles left of the budget, `k + 1` passes return. -/
theorem runFor_returns_within_budget (k : Nat) : ∀ {rs : RunState} {b : Nat}, rs.machine.params.legal = true →
    rs.machine.params.runBudget = some b → rs.stop = none → rs.count + k = b →
    ∃ rs', runFor (k + 1) rs = .next rs' ∧ rs'.stop.isSome = true ∧ rs'.count ≤ b := by
  induction k with
  | zero =>
    intro rs b legal budget running left
    have exhausted : rs.machine.params.runBudget = some rs.count := by rw [budget, ← left]; rfl
    exact ⟨{ rs with stop := some .budgetExhausted }, by simp [runFor, runPass, running, exhausted], rfl, left.le⟩
  | succ k ih =>
    intro rs b legal budget running left
    have within : rs.machine.params.runBudget ≠ some rs.count := by
      rw [budget, ne_eq, Option.some.injEq]; omega
    obtain ⟨t, stepped⟩ := (everyMachineAlwaysSteps.2 rs.machine).mpr legal
    obtain ⟨o, report, _⟩ := step_cycle stepped
    have passed := runPass_of_step running within stepped report
    cases stop : (afterCycle rs t o).stop with
    | some reason =>
      have stopped : (afterCycle rs t o).stop.isSome = true := by rw [stop]; rfl
      have counted := afterCycle_count_le rs t o
      exact ⟨afterCycle rs t o, by rw [runFor, passed]; exact runFor_of_stopped stopped _, stopped, by omega⟩
    | none =>
      have same : (afterCycle rs t o).machine.params = rs.machine.params := params_step stepped
      have counted := afterCycle_count_of_running stop
      rw [runFor, passed]
      exact ih (same ▸ legal) (same ▸ budget) stop (by omega)

/-- Settles O48: at the start all `b` cycles are left. -/
theorem budgetedRunReturns : Obligations.BudgetedRunReturns := by
  intro s b legal budget
  exact runFor_returns_within_budget b (rs := runStart s) legal budget rfl (Nat.zero_add b)

/-! ## The stop reasons (R76) -/

/-- What each stop reason says of the machine (R76); a run that goes on with a HALTED machine has executed no cycle yet. -/
def RunState.Described (rs : RunState) : Prop :=
  match rs.stop with
  | none => rs.machine.halted = true → rs.count = 0
  | some .halted => rs.machine.halted = true ∧ rs.last = some .ok ∧ 0 < rs.count
  | some .endOfProgram => rs.machine.halted = false ∧ ¬ rs.machine.pc.toNat + 1 < rs.machine.params.memSize
  | some .addressError => rs.machine.halted = false ∧ rs.machine.faulted = true ∧ 0 < rs.count
  | some .notRunHalted => rs.machine.halted = true ∧ rs.count = 0
  | some .guardStop => rs.machine.params.runContinue = .threeAhead ∧ rs.machine.halted = false ∧
      rs.machine.pc.toNat + 1 < rs.machine.params.memSize ∧ ¬ rs.machine.pc.toNat + 3 < rs.machine.params.memSize
  | some .budgetExhausted => rs.machine.params.runBudget = some rs.count

/-- The test after a cycle without an error describes the machine, if a HALTED one has just executed HALT. -/
theorem described_of_guardedStop {rs : RunState} (stop : rs.stop = guardedStop rs.machine)
    (onHalt : rs.machine.halted = true → rs.last = some .ok ∧ 0 < rs.count) : rs.Described := by
  unfold RunState.Described
  obtain ⟨halted, eq⟩ | ⟨running, _, eq⟩ | ⟨running, stops, fits, eq⟩ | ⟨running, _, past, eq⟩ := guardedStop_cases rs.machine <;>
    rw [stop, eq]
  · exact ⟨halted, onHalt halted⟩
  · simp [running]
  · obtain ⟨mode, noRoom⟩ := threeAhead_of_guardStop stops fits
    exact ⟨mode, running, fetchable_iff.mp fits, noRoom⟩
  · exact ⟨running, fun fits => by simp [fetchable_iff.mpr fits] at past⟩

theorem described_afterCycle {rs : RunState} {t : State} {o : CycleOutcome} (noCycleYet : rs.machine.halted = true → rs.count = 0)
    (report : t.report = some o) (cycle : Cycle rs.machine t o) : (afterCycle rs t o).Described := by
  cases cycle with
  | notRunHalted halted same => subst same; exact ⟨halted, noCycleYet halted⟩
  | endOfProgram running past same => subst same; exact ⟨running, past⟩
  | ok => exact described_of_guardedStop rfl fun _ => ⟨rfl, Nat.succ_pos _⟩
  | addressError e stays => exact ⟨stays, by simp [afterCycle, State.faulted, report], Nat.succ_pos _⟩
  | unknownOpcode op w stays =>
    refine described_of_guardedStop rfl fun halted => ?_
    rw [show t.halted = true from halted] at stays
    cases stays

theorem described_runPass {rs rs' : RunState} (described : rs.Described) (passed : runPass rs = .next rs') : rs'.Described := by
  obtain ⟨_, rfl⟩ | ⟨_, budget, rfl⟩ | ⟨running, _, t, stepped, rfl⟩ := runPass_cases passed
  · exact described
  · exact budget
  · have noCycleYet : rs.machine.halted = true → rs.count = 0 := by simpa only [RunState.Described, running] using described
    obtain ⟨o, report, cycle⟩ := step_cycle stepped
    rw [report]
    exact described_afterCycle noCycleYet report cycle

/-- Settles O49: a run starts with no cycle executed, and every pass keeps the description of R76. -/
theorem stopReasonDescribesTheMachine : Obligations.StopReasonDescribesTheMachine := by
  rintro s rs ⟨k, ran, _⟩ m
  have atStart : (runStart s).Described := fun _ => rfl
  have described : rs.Described := runFor_keeps described_runPass k atStart ran
  and_intros <;> (intro stop; simpa only [RunState.Described, stop] using described)

/-! ## The jump to itself (R75, R93) -/

/-- The machine is about to take a jump to its own address, and a run of it has no budget and its guard holds. -/
structure SelfJump (r : Digit) (target : Byte) (s : State) : Prop where
  legal : s.params.legal = true
  running : s.halted = false
  fits : s.pc.toNat + 1 < s.params.memSize
  isJeq : decode (fetchWord s) = .jeq r target
  hasReg : HasReg s r
  equal : readReg s r = readReg s 0x0#4
  own : target.toNat = s.pc.toNat
  continues : runContinue s = true
  noBudget : s.params.runBudget = none

/-- JEQ with its register there and equal to register 0 jumps (R93). -/
theorem exec_jeq_of_equal {s : State} {r : Digit} (target : Byte) (hasReg : HasReg s r) (equal : readReg s r = readReg s 0x0#4) :
    exec (.jeq r target) s = .next (answer (setPc s (target.setWidth 9)) .ok) := by
  have valid : ∀ e ∈ [registerOperand .R r], operandValid s e = true := by simpa using hasReg
  rw [exec, execJeq, validated_of_valid _ valid, if_pos equal]

/-- The jump undoes the advance, so the cycle changes only the two fields no cycle reads. -/
theorem SelfJump.step_eq {r : Digit} {target : Byte} {s : State} (loop : SelfJump r target s) :
    step s = .next { s with ir := fetchWord s, report := some .ok } := by
  have back : target.setWidth 9 = s.pc := by
    apply BitVec.eq_of_toNat_eq
    rw [BitVec.toNat_setWidth, loop.own, Nat.mod_eq_of_lt s.pc.isLt]
  have jumps : exec (.jeq r target) (fetched s) = _ := exec_jeq_of_equal target loop.hasReg loop.equal
  rw [step_of_gate_none loop.legal (gate_eq_none_iff.mpr ⟨loop.running, loop.fits⟩), loop.isJeq, jumps, back]
  rfl

theorem SelfJump.withHidden {r : Digit} {target : Byte} {s : State} (loop : SelfJump r target s) (w : Word)
    (o : Option CycleOutcome) : SelfJump r target { s with ir := w, report := o } :=
  ⟨loop.legal, loop.running, loop.fits, loop.isJeq, loop.hasReg, loop.equal, loop.own, loop.continues, loop.noBudget⟩

/-- A pass of a run that loops leaves a run that loops. -/
theorem SelfJump.runPass_running {r : Digit} {target : Byte} {rs : RunState} (loop : SelfJump r target rs.machine) (running : rs.stop = none) :
    ∃ rs', runPass rs = .next rs' ∧ rs'.stop = none ∧ SelfJump r target rs'.machine := by
  have noBudget : rs.machine.params.runBudget ≠ some rs.count := by simp [loop.noBudget]
  exact ⟨_, runPass_of_step running noBudget loop.step_eq rfl, guardedStop_eq_none_iff.mpr ⟨loop.running, loop.continues⟩,
    loop.withHidden _ _⟩

theorem SelfJump.runFor_running {r : Digit} {target : Byte} (k : Nat) : ∀ {rs : RunState}, SelfJump r target rs.machine → rs.stop = none →
    ∃ rs', runFor k rs = .next rs' ∧ rs'.stop = none := by
  induction k with
  | zero => exact fun _ running => ⟨_, rfl, running⟩
  | succ k ih =>
    intro rs loop running
    obtain ⟨rs', passed, running', loop'⟩ := loop.runPass_running running
    rw [runFor, passed]
    exact ih loop' running'

/-- Settles O52: every pass leaves the machine about to take the same jump. -/
theorem takenSelfJumpRunsForever : Obligations.TakenSelfJumpRunsForever := by
  intro s r target legal running fits isJeq hasReg equal own continues noBudget k
  have loop : SelfJump r target s := ⟨legal, running, fits, isJeq, hasReg, equal, own, continues, noBudget⟩
  exact loop.runFor_running k (rs := runStart s) rfl

end Sys2Proof.Machine
end

section
/-! PROOFS. The statements about the data transfer instructions (spec/41_data_transfer.md), and what completing with a register write or with a
memory write does to the whole state. -/

namespace Sys2Proof.Machine

/-! ## Completing with one write (R17, R69) -/

/-- An instruction that completes with a write of register `r` reports OK, sets that register and changes nothing else. -/
theorem writeReg_effect_of_exec {i : Instr} {s : State} {r : Digit} {v : Byte} (completes : exec i s = .next (answer (writeReg s r v) .ok)) :
    ∃ t, exec i s = .next t ∧ t.report = some .ok ∧ t.regs.cell r.toNat = some v ∧
      SameRegistersBut r s t ∧ SameMemory s t ∧ SameControl s t :=
  ⟨_, completes, rfl, Bank.cell_write_self _ _ _, fun _ other => Bank.cell_write_of_ne _ _ other, fun _ => rfl, rfl, rfl, rfl, rfl⟩

/-- An instruction that completes with a write of the memory cell at `a` reports OK, sets that cell and changes nothing else. -/
theorem writeMem_effect_of_exec {i : Instr} {s : State} {a : Nat} {v : Byte} (completes : exec i s = .next (answer (writeMem s a v) .ok)) :
    ∃ t, exec i s = .next t ∧ t.report = some .ok ∧ t.mem.cell a = some v ∧
      SameMemoryBut a s t ∧ SameRegisters s t ∧ SameControl s t :=
  ⟨_, completes, rfl, Bank.cell_write_self _ _ _, fun _ other => Bank.cell_write_of_ne _ _ other, fun _ => rfl, rfl, rfl, rfl, rfl⟩

/-! ## LD, LDI and MOV with their operands there (R66, R67, R77, R78, R80) -/

theorem exec_ld_of_valid {s : State} {r : Digit} {a : Byte} (hasReg : HasReg s r) (hasMem : HasMem s a) :
    exec (.ld r a) s = .next (answer (writeReg s r (readMem s a.toNat)) .ok) :=
  validated_of_valid (es := [registerOperand .R r, memoryOperand a]) (fun s => writeReg s r (readMem s a.toNat))
    (by simp [hasReg, hasMem])

theorem exec_ldi_of_valid {s : State} {r : Digit} (imm : Byte) (hasReg : HasReg s r) :
    exec (.ldi r imm) s = .next (answer (writeReg s r imm) .ok) :=
  validated_of_valid (es := [registerOperand .R r]) (fun s => writeReg s r imm) (by simp [hasReg])

theorem exec_mov_of_valid {s : State} {r d : Digit} (hasSource : HasReg s r) (hasDest : HasReg s d) :
    exec (.mov r d) s = .next (answer (writeReg s d (readReg s r)) .ok) :=
  validated_of_valid (es := [registerOperand .R r, registerOperand .S d]) (fun s => writeReg s d (readReg s r))
    (by simp [hasSource, hasDest])

/-! ## The statements -/

/-- Settles O15: LD with its operands there completes with a write of its register. -/
theorem ldLoadsTheMemoryCell : Obligations.LdLoadsTheMemoryCell := by
  intro s r a hasReg hasMem
  exact writeReg_effect_of_exec (exec_ld_of_valid hasReg hasMem)

/-- Settles O16: only the register is an operand of LDI, so no premise is about the immediate. -/
theorem ldiLoadsTheImmediate : Obligations.LdiLoadsTheImmediate := by
  intro s r imm hasReg
  exact writeReg_effect_of_exec (exec_ldi_of_valid imm hasReg)

/-- Settles O17: ST with its operands there completes with a write of its memory cell. -/
theorem stStoresTheRegister : Obligations.StStoresTheRegister := by
  intro s r a hasReg hasMem
  exact writeMem_effect_of_exec (exec_st_of_valid hasReg hasMem)

/-- Settles O18: MOV with its operands there completes with a write of the second register, its value read before the write. -/
theorem movCopiesTheFirstRegisterToTheSecond : Obligations.MovCopiesTheFirstRegisterToTheSecond := by
  intro s r d hasSource hasDest
  exact writeReg_effect_of_exec (exec_mov_of_valid hasSource hasDest)

end Sys2Proof.Machine
end

section
/-! PROOFS. The statements about the ALU (spec/42_alu.md): the add as signed arithmetic, the bitwise functions and the rotate by their bits, and what the
ALU instructions do to the whole state. -/

namespace Sys2Proof.Machine

/-! ## The add (R81 to R83) -/

/-- `signed8` is the library's two's-complement reading (R81). -/
theorem signed8_eq_toInt (v : Byte) : signed8 v = v.toInt := by
  unfold signed8
  rw [BitVec.toInt_eq_toNat_cond]
  split <;> split <;> omega

theorem rawSum_eq_toInt_add_toInt (x y : Byte) : rawSum x y = x.toInt + y.toInt := by
  rw [rawSum, signed8_eq_toInt, signed8_eq_toInt]

/-- The two branches of the correction, with the test of the magnitude written as bounds (R82). -/
theorem correctedSum_eq_ite (mode : AddOverflow) (r : Int) :
    correctedSum mode r = if -127 ≤ r ∧ r ≤ 127 then r else addOverflow mode r := by
  split
  · next small => exact correctedSum_small mode small
  · next large => exact correctedSum_large mode (by omega)

/-- The raw sum mod 256 is the wrapped sum of the bytes. -/
theorem ofInt_rawSum (x y : Byte) : BitVec.ofInt 8 (rawSum x y) = x + y := by
  rw [rawSum_eq_toInt_add_toInt, BitVec.ofInt_add, BitVec.ofInt_toInt, BitVec.ofInt_toInt]

theorem add8_of_small (mode : AddOverflow) {x y : Byte} (small : -127 ≤ rawSum x y ∧ rawSum x y ≤ 127) : add8 mode x y = x + y := by
  rw [add8, correctedSum_small mode small, ofInt_rawSum]

theorem add8_negate_of_large {x y : Byte} (large : ¬ (-127 ≤ rawSum x y ∧ rawSum x y ≤ 127)) : add8 .negate x y = -(x + y) := by
  rw [add8, correctedSum_large .negate (by omega), addOverflow, BitVec.ofInt_neg, ofInt_rawSum]

/-- A byte equals its negation exactly when it is 0 or 128. -/
theorem neg_ofInt_eq_self_iff (n : Int) : -BitVec.ofInt 8 n = BitVec.ofInt 8 n ↔ n % 128 = 0 := by
  rw [← BitVec.ofInt_neg, ← BitVec.toNat_inj, BitVec.toNat_ofInt, BitVec.toNat_ofInt]
  omega

/-- Where NEGATE gives the wrapped sum all the same: of the sums beyond the band, -256, -128 and 128 are the multiples of 128 (R83). -/
theorem add8_negate_eq_add_iff (x y : Byte) :
    add8 .negate x y = x + y ↔
      (-127 ≤ rawSum x y ∧ rawSum x y ≤ 127) ∨ rawSum x y = -256 ∨ rawSum x y = -128 ∨ rawSum x y = 128 := by
  by_cases small : -127 ≤ rawSum x y ∧ rawSum x y ≤ 127
  · simp [add8_of_small .negate small, small]
  · have bounds := rawSum_bounds x y
    rw [add8_negate_of_large small, ← ofInt_rawSum, neg_ofInt_eq_self_iff]
    omega

/-! ## The rotate (R85) -/

/-- Below bit `8 - k` the result has the right shift's bits, from there up the left shift's. -/
theorem getLsbD_rotr8 (v : Byte) {k n : Nat} (kLt : k < 8) (nLt : n < 8) : (rotr8 v k).getLsbD n = v.getLsbD ((n + k) % 8) := by
  rw [rotr8, BitVec.getLsbD_or, BitVec.getLsbD_ushiftRight, BitVec.getLsbD_shiftLeft]
  by_cases low : n + k < 8
  · have fromRight : n < 8 - k := by omega
    simp [fromRight, Nat.mod_eq_of_lt low, Nat.add_comm k n]
  · have fromLeft : ¬ n < 8 - k := by omega
    have dropped : v.getLsbD (k + n) = false := BitVec.getLsbD_of_ge v _ (by omega)
    have wraps : (n + k) % 8 = n - (8 - k) := by omega
    simp [fromLeft, nLt, dropped, wraps]

/-- The mask `0xFF` of the spec's formula is the reduction mod 256 of a left shift on 8 bits. -/
theorem toNat_rotr8 (v : Byte) (k : Nat) : (rotr8 v k).toNat = (v.toNat >>> k) ||| ((v.toNat <<< (8 - k)) &&& 0xFF) := by
  rw [rotr8, BitVec.toNat_or, BitVec.toNat_ushiftRight, BitVec.toNat_shiftLeft, Nat.and_two_pow_sub_one_eq_mod _ 8]

/-- Two rotates whose counts add up to 0 mod 8 give the byte back. -/
theorem rotr8_rotr8_of_add_mod (v : Byte) {j k : Nat} (jLt : j < 8) (kLt : k < 8) (whole : (j + k) % 8 = 0) :
    rotr8 (rotr8 v j) k = v := by
  apply BitVec.eq_of_getLsbD_eq
  intro n nLt
  have back : ((n + k) % 8 + j) % 8 = n := by omega
  rw [getLsbD_rotr8 _ kLt nLt, getLsbD_rotr8 _ jLt (Nat.mod_lt _ (by decide)), back]

theorem rotr8_zero (v : Byte) : rotr8 v 0 = v := by
  apply BitVec.eq_of_getLsbD_eq
  intro n nLt
  rw [getLsbD_rotr8 v (by decide) nLt, Nat.add_zero, Nat.mod_eq_of_lt nLt]

/-! ## The ALU instructions with their operands there (R66, R68, R87 to R92) -/

theorem aluRst_of_valid (f : Byte → Byte → Byte) {s : State} {r a b : Digit} (hasR : HasReg s r) (hasS : HasReg s a) (hasT : HasReg s b) :
    aluRst f r a b s = .next (answer (writeReg s r (f (readReg s a) (readReg s b))) .ok) :=
  validated_of_valid (es := [registerOperand .R r, registerOperand .S a, registerOperand .T b])
    (fun s => writeReg s r (f (readReg s a) (readReg s b))) (by simp [hasR, hasS, hasT])

/-- Both adds, opcode 6 by its equality with opcode 5 (R88). -/
theorem exec_adds_of_valid {i : Instr} {s : State} {r a b : Digit} (isAdd : i ∈ [Instr.add r a b, Instr.add6 r a b])
    (hasR : HasReg s r) (hasS : HasReg s a) (hasT : HasReg s b) :
    exec i s = .next (answer (writeReg s r (add8 s.params.addOverflow (readReg s a) (readReg s b))) .ok) := by
  have asFive : exec i s = exec (.add r a b) s := by
    simp only [List.mem_cons, List.not_mem_nil, or_false] at isAdd
    rcases isAdd with rfl | rfl
    · rfl
    · exact exec_add6_eq_exec_add r a b s
  rw [asFive]
  exact aluRst_of_valid (add8 s.params.addOverflow) hasR hasS hasT

theorem exec_ror_of_valid {s : State} {r x : Digit} (hasR : HasReg s r) (hasX : HasReg s x) :
    exec (.ror r x) s = .next (answer (writeReg s r (rotr8 (readReg s r) (rotateCount (readReg s x)))) .ok) :=
  validated_of_valid (es := [registerOperand .R r, registerOperand .X x])
    (fun s => writeReg s r (rotr8 (readReg s r) (rotateCount (readReg s x)))) (by simp [hasR, hasX])

/-- An instruction that completes with a register write of a value `v` with the property `P` has the effect of that write for some such value. -/
theorem writeReg_effect_of_exec_where {P : Byte → Prop} {i : Instr} {s : State} {r : Digit} {v : Byte}
    (completes : exec i s = .next (answer (writeReg s r v) .ok)) (holds : P v) :
    ∃ t v, exec i s = .next t ∧ t.report = some .ok ∧ t.regs.cell r.toNat = some v ∧ P v ∧
      SameRegistersBut r s t ∧ SameMemory s t ∧ SameControl s t := by
  obtain ⟨t, next, ok, written, frame⟩ := writeReg_effect_of_exec completes
  exact ⟨t, v, next, ok, written, holds, frame⟩

/-! ## The statements -/

/-- Settles O19: the raw sum is the sum of the library's signed readings, and the correction's two branches are the statement's. -/
theorem addWritesTheCorrectedSum : Obligations.AddWritesTheCorrectedSum := by
  intro s r a b hasR hasS hasT i isAdd sum
  have effect := writeReg_effect_of_exec (exec_adds_of_valid isAdd hasR hasS hasT)
  rwa [add8, correctedSum_eq_ite, rawSum_eq_toInt_add_toInt] at effect

/-- Settles O20: each of the three is the shape `oRST` with a function known by its bits. -/
theorem bitwiseInstructionsActBitByBit : Obligations.BitwiseInstructionsActBitByBit := by
  intro s r a b hasR hasS hasT p isBitwise
  simp only [List.mem_cons, List.not_mem_nil, or_false] at isBitwise
  rcases isBitwise with rfl | rfl | rfl
  · exact writeReg_effect_of_exec_where (aluRst_of_valid or8 hasR hasS hasT) fun _ _ => BitVec.getLsbD_or
  · exact writeReg_effect_of_exec_where (aluRst_of_valid and8 hasR hasS hasT) fun _ _ => BitVec.getLsbD_and
  · exact writeReg_effect_of_exec_where (aluRst_of_valid xor8 hasR hasS hasT) fun _ _ => BitVec.getLsbD_xor

/-- Settles O21: ROR completes with a write of the rotate, whose bits are known for every count below 8. -/
theorem rorRotatesByTheCountRegister : Obligations.RorRotatesByTheCountRegister := by
  intro s r x hasR hasX
  exact writeReg_effect_of_exec_where (exec_ror_of_valid hasR hasX) fun _ nLt => getLsbD_rotr8 _ (rotateCount_lt _) nLt

/-- Settles O22: the add under NEGATE inside the band, beyond it, and where the two agree. -/
theorem negateBandOfTheAdd : Obligations.NegateBandOfTheAdd := by
  intro s r a b hasR hasS hasT negate i isAdd x y sum
  have sumEq : sum = rawSum x y := (rawSum_eq_toInt_add_toInt x y).symm
  have completes := exec_adds_of_valid isAdd hasR hasS hasT
  rw [negate] at completes
  rw [sumEq]
  exact ⟨_, _, completes, Bank.cell_write_self _ _ _, add8_of_small .negate, add8_negate_of_large, add8_negate_eq_add_iff x y⟩

/-- Settles O24: the second count's register is not the one the first rotate writes, so the counts still add up to 0 mod 8. -/
theorem secondRotateUndoesTheFirst : Obligations.SecondRotateUndoesTheFirst := by
  intro s r x y hasR hasX hasY yNe complement
  have kept : y.toNat ≠ r.toNat := fun eq => yNe (BitVec.eq_of_toNat_eq eq)
  have whole : (rotateCount (readReg s x) + rotateCount (readReg s y)) % 8 = 0 := by
    simp only [rotateCount, readReg]
    omega
  refine ⟨_, _, exec_ror_of_valid hasR hasX, exec_ror_of_valid hasR hasY, ?_, fun j other => by simp [other], fun _ => rfl⟩
  simp only [readReg, answer_regs, writeReg_regs, Bank.read_write_self, Bank.read_write_of_ne _ _ kept]
  exact rotr8_rotr8_of_add_mod _ (rotateCount_lt _) (rotateCount_lt _) whole

/-- Settles O23: the formula, the bits and the count 0, each a lemma about `rotr8`. -/
theorem rotateFormulaAndBits : Obligations.RotateFormulaAndBits := by
  intro v k kLt
  exact ⟨toNat_rotr8 v k, fun _ nLt => getLsbD_rotr8 v kLt nLt, rotr8_zero v⟩

end Sys2Proof.Machine
end

section
/-! PROOFS. The statements about the control instructions (spec/43_control.md): JEQ by whether its register equals register 0, HALT, and where a cycle
leaves the counter. -/

namespace Sys2Proof.Machine

/-! ## JEQ (R93) -/

/-- The counter is wider than a target, so it holds the literal target (R7, R93). -/
theorem toNat_jump_target (target : Byte) : (target.setWidth 9 : Counter).toNat = target.toNat :=
  BitVec.toNat_setWidth_of_le (by decide)

/-- JEQ with its register there and different from register 0 completes with no effect (R93). -/
theorem exec_jeq_of_ne {s : State} {r : Digit} (target : Byte) (hasReg : HasReg s r) (differ : readReg s r ≠ readReg s 0x0#4) :
    exec (.jeq r target) s = .next (answer s .ok) := by
  have valid : ∀ e ∈ [registerOperand .R r], operandValid s e = true := by simpa using hasReg
  rw [exec, execJeq, validated_of_valid _ valid, if_neg differ]

/-- Settles O25: by whether the register equals register 0. -/
theorem jeqJumpsExactlyWhenEqual : Obligations.JeqJumpsExactlyWhenEqual := by
  intro s r target hasReg
  by_cases equal : s.regs.read r.toNat = s.regs.read 0
  · have jumped : (answer (setPc s (target.setWidth 9)) .ok).pc.toNat = target.toNat := toNat_jump_target target
    rw [if_pos equal]
    exact ⟨_, exec_jeq_of_equal target hasReg equal, rfl, jumped, fun _ => rfl, fun _ => rfl, rfl, rfl, rfl⟩
  · rw [if_neg equal]
    exact ⟨_, exec_jeq_of_ne target hasReg equal, rfl, rfl, fun _ => rfl, fun _ => rfl, rfl, rfl, rfl⟩

/-! ## HALT (R94) -/

/-- HALT has no operand to fail, so it completes on every state (R68, R94). -/
theorem exec_halt (s : State) : exec .halt s = .next (answer (setHalted s) .ok) :=
  validated_of_valid (es := []) setHalted (by simp)

/-- Settles O26: the one effect of HALT is on `halted`. -/
theorem haltSetsHalted : Obligations.HaltSetsHalted := by
  intro s
  exact ⟨_, exec_halt s, rfl, setHalted_halted s, fun _ => rfl, fun _ => rfl, rfl, rfl, rfl⟩

/-! ## The counter (R65, R93, R95) -/

/-- The jump alone moves the counter that the operation began with. -/
theorem Executes.pc_cases {i : Instr} {s t : State} (executed : Executes i s t) :
    t.pc = s.pc ∨ ∃ r target, i = .jeq r target ∧ readReg s r = readReg s 0x0#4 ∧ t.pc.toNat = target.toNat := by
  cases executed with
  | addressError | register | memory | noJump | halt | unknown => exact .inl rfl
  | jump r target isJeq equal => exact .inr ⟨r, target, isJeq, equal, toNat_jump_target target⟩

/-- Settles O45: the operation begins with the counter advanced, and a request turned away changes only `report`. -/
theorem counterMovesByAdvanceOrJump : Obligations.CounterMovesByAdvanceOrJump := by
  intro s t stepped
  obtain ⟨_, ⟨o, turnedAway, rfl⟩ | ⟨g, executed⟩⟩ := step_next stepped
  · exact ⟨fun g => by simp [turnedAway] at g, fun _ => rfl⟩
  · exact ⟨fun _ => executed.pc_cases, fun closed => absurd g closed⟩

end Sys2Proof.Machine
end

section
/-! PROOFS. The statements about outcomes and errors (spec/60_exceptions.md): which outcome a cycle reports, what a request that reports an error has
changed, and what ends END_OF_PROGRAM. -/

namespace Sys2Proof.Machine

/-! ## The outcome of an executed operation (R97, R98, R102) -/

/-- The opcode digits with no operation (R52, R98). -/
def UnknownOp (op : Digit) : Prop := op = 0x0#4 ∨ op = 0xD#4 ∨ op = 0xE#4 ∨ op = 0xF#4

/-- A word of an unknown opcode runs as the report of its digit and of itself. -/
theorem exec_decode_of_unknownOp {w : Word} (unknown : UnknownOp (opField w)) (s : State) :
    exec (decode w) s = .next (answer s (.unknownOpcode (opField w) w)) := by
  have reports : exec (decode w) s = .next (reportUnknownOpcode s (opField w) (restField w)) := by
    obtain op | op | op | op := unknown <;> simp only [decode, op] <;> rfl
  rw [reports, reportUnknownOpcode, opField_append_restField]

/-- No opcode ignores its own digit (R52, R55). -/
theorem opField_encode_decode (w : Word) : opField (encode (decode w)) = opField w := by
  have keepsTop {m : Word} (ones : opField m = 0xF#4) : opField (w &&& m) = opField w := by
    rw [opField, BitVec.extractLsb'_and]
    exact (congrArg _ ones).trans (and_allOnes_digit _)
  rw [encode_decode]
  split_ifs <;> exact keepsTop rfl

/-- The list by which `Executes` names the unknown opcodes holds only operations without operands, under the digit of their words. -/
theorem wellFormed_and_unknownOp_of_mem {i : Instr} {op : Digit} {rest : BitVec 12} (p : Params)
    (isUnknown : (i, op) ∈ [(Instr.unknown0 rest, 0x0#4), (.unknownD rest, 0xD#4), (.unknownE rest, 0xE#4), (.unknownF rest, 0xF#4)]) :
    i.wellFormed p = true ∧ UnknownOp (opField (encode i)) := by
  simp only [List.mem_cons, Prod.mk.injEq, List.not_mem_nil, or_false] at isUnknown
  obtain ⟨rfl, _⟩ | ⟨rfl, _⟩ | ⟨rfl, _⟩ | ⟨rfl, _⟩ := isUnknown <;> simp [Instr.wellFormed, encode, UnknownOp]

theorem Executes.addressError_of_illFormed {i : Instr} {s t : State} (executed : Executes i s t) (ill : i.wellFormed s.params = false) :
    ∃ e, t = answer s (.addressError e) ∧ operandValid s e = false := by
  cases executed with
  | addressError e bad => exact ⟨e, rfl, bad⟩
  | register _ _ _ _ _ well | memory _ _ _ _ _ well | jump _ _ _ _ well | noJump _ _ _ _ well => simp [well] at ill
  | halt isHalt => subst isHalt; cases ill
  | unknown op rest isUnknown => simp [(wellFormed_and_unknownOp_of_mem s.params isUnknown).1] at ill

theorem Executes.ok_of_wellFormed {w : Word} {s t : State} (executed : Executes (decode w) s t) (known : ¬ UnknownOp (opField w))
    (well : (decode w).wellFormed s.params = true) : t.report = some .ok := by
  cases executed with
  | addressError e bad ill => simp [ill] at well
  | register | memory | jump | noJump | halt => rfl
  | unknown op rest isUnknown =>
    have unknown := (wellFormed_and_unknownOp_of_mem s.params isUnknown).2
    rw [opField_encode_decode] at unknown
    exact absurd unknown known

/-- A machine at the end of its memory answers END_OF_PROGRAM (R63, R99). -/
theorem step_past_end {s : State} (legal : s.params.legal = true) (running : s.halted = false)
    (past : ¬ s.pc.toNat + 1 < s.params.memSize) : step s = .next (answer s .endOfProgram) := by
  have g : gate s = some .endOfProgram := by simp [gate, fetchable, running, past]
  simp [step, legal, g]

/-- Settles O12: the two gates in their order, then the opcode digit, then whether the operands exist. -/
theorem outcomeFollowsTheOrderOfChecks : Obligations.OutcomeFollowsTheOrderOfChecks := by
  intro s legal w unknown
  have cycle (running : s.halted = false) (fits : s.pc.toNat + 1 < s.params.memSize) : step s = exec (decode w) (fetched s) :=
    step_of_gate_none legal (gate_eq_none_iff.mpr ⟨running, fits⟩)
  obtain ⟨t, stepped⟩ := (everyMachineAlwaysSteps.2 s).mpr legal
  have executed (running : s.halted = false) (fits : s.pc.toNat + 1 < s.params.memSize) : Executes (decode w) (fetched s) t :=
    executes_of_exec ((cycle running fits).symm.trans stepped)
  refine ⟨t, stepped, fun halted => ?_, fun running past => ?_, fun running fits isUnknown => ?_, fun running fits _ ill => ?_,
    fun running fits known well => (executed running fits).ok_of_wellFormed known well⟩
  · rw [step_of_halted stepped halted, answer_report]
  · rw [step_past_end legal running past] at stepped
    cases stepped
    rfl
  · rw [cycle running fits, exec_decode_of_unknownOp isUnknown] at stepped
    cases stepped
    rfl
  · obtain ⟨e, rfl, bad⟩ := (executed running fits).addressError_of_illFormed ill
    exact ⟨e, rfl, bad⟩

/-! ## Errors are precise (R103) -/

/-- An executed operation reports the outcome of an executed cycle, and one other than OK is all that it leaves. -/
theorem Executes.report_executed {i : Instr} {s t : State} (executed : Executes i s t) :
    ∃ o, t.report = some o ∧ o.executed = true ∧ (o ≠ .ok → t = answer s o) := by
  cases executed with
  | addressError e => exact ⟨_, rfl, rfl, fun _ => rfl⟩
  | register | memory | jump | noJump | halt => exact ⟨.ok, rfl, rfl, fun error => absurd rfl error⟩
  | unknown op rest => exact ⟨_, rfl, rfl, fun _ => rfl⟩

theorem executed_of_gate {s : State} {o : CycleOutcome} (g : gate s = some o) : o.executed = false := by
  obtain ⟨_, g'⟩ | ⟨_, _, g'⟩ | ⟨_, _, g'⟩ := gate_cases s <;> rw [g'] at g <;> cases g <;> rfl

/-- A cycle that does not report OK leaves its report on the fetched state, or on the state itself if no cycle was executed. -/
theorem step_eq_answer_of_error {s t : State} {o : CycleOutcome} (stepped : step s = .next t) (report : t.report = some o)
    (error : o ≠ .ok) : t = answer (if o.executed then fetched s else s) o := by
  obtain ⟨_, ⟨o', g, rfl⟩ | ⟨_, executed⟩⟩ := step_next stepped
  · cases report
    rw [executed_of_gate g]
    rfl
  · obtain ⟨o', report', isExecuted, same⟩ := executed.report_executed
    rw [report] at report'
    cases report'
    rw [isExecuted]
    exact same error

theorem writeBank_of_failed {space : Space} {s : State} {a : Nat} {first : HostValue} {more : List HostValue}
    (failed : (writeBank space s a first more).1 ≠ .ok) : (writeBank space s a first more).2 = s := by
  by_cases good : ∀ v ∈ first :: more, parseValue v ≠ none
  · by_cases fits : a + (more.length + 1) ≤ bankSize s space
    · obtain ⟨b, written, _⟩ := writeBank_ok good fits
      exact absurd (by rw [written]) failed
    · rw [writeBank_addressError good (Nat.not_le.mp fits)]
  · push Not at good
    obtain ⟨v, mem, bad⟩ := good
    rw [writeBank_formatError mem bad]

theorem setInstructionCounter_of_failed {s : State} {a : Nat} (failed : (setInstructionCounter s a).1 ≠ .ok) :
    (setInstructionCounter s a).2 = s := by
  by_cases inside : a < s.params.memSize
  · simp [setInstructionCounter, inside] at failed
  · simp [setInstructionCounter, inside]

/-- Settles O14: the fetch changes `pc` and `ir` alone, and each error of a cycle is answered on the fetched state or on the state itself. -/
theorem errorsArePrecise : Obligations.ErrorsArePrecise := by
  refine ⟨fun s t o stepped report => ⟨?_, ?_, ?_⟩, fun s a first more =>
    ⟨writeBank_of_failed, writeBank_of_failed, setInstructionCounter_of_failed⟩⟩
  · rintro e rfl
    exact step_eq_answer_of_error stepped report nofun
  · rintro op w rfl
    exact step_eq_answer_of_error stepped report nofun
  · rintro (rfl | rfl) <;> exact step_eq_answer_of_error stepped report nofun

/-! ## What ends END_OF_PROGRAM (R99) -/

theorem pc_afterHostWrite {s t : State} (written : AfterHostWrite s t) : t.pc = s.pc := by
  obtain rfl | ⟨space, a, bytes, _, rfl⟩ := afterHostWrite_cases written
  · rfl
  · cases space <;> rfl

/-- Settles O11: the gate reads the parameters, `halted` and `pc`, and of these only the counter request changes one. -/
theorem endOfProgramUntilTheCounterIsMoved : Obligations.EndOfProgramUntilTheCounterIsMoved := by
  intro s legal running past
  have atEnd := step_past_end legal running past
  refine ⟨atEnd, rfl, fun a inside => ?_, ?_⟩
  · obtain ⟨t, moved, pc, same, halted⟩ := (setInstructionCounterMovesOnlyTheCounter s a legal).1 (by omega)
    have params : t.params = s.params := by rw [same]
    have gateOpen : gate t = none := gate_eq_none_iff.mpr ⟨halted.trans running, by rw [pc, params]; exact inside⟩
    have cycle := step_of_gate_none (params ▸ legal) gateOpen
    obtain ⟨u, ran, executed⟩ := exec_executes (decode (fetchWord t)) (fetched t)
    obtain ⟨o, report, isExecuted, _⟩ := executed.report_executed
    exact ⟨t, u, o, moved, pc, cycle, cycle.trans ran, report, isExecuted⟩
  · have stays {t : State} (params : t.params = s.params) (pc : t.pc = s.pc) (running' : t.halted = false) :
        step t = .next (answer t .endOfProgram) :=
      step_past_end (params ▸ legal) running' (by rw [pc, params]; exact past)
    rintro t (written | rfl | stepped)
    · exact stays (parametersNeverChange s t (.inr (.inl written))) (pc_afterHostWrite written)
        ((halted_afterHostWrite written).trans running)
    · exact stays rfl rfl rfl
    · rw [atEnd] at stepped
      cases stepped
      exact stays rfl rfl running

end Sys2Proof.Machine
end

section
/-! PROOFS. What `new_machine` builds and what it rejects (spec/70_reset_and_hazards.md). -/

namespace Sys2Proof.Machine

theorem newMachine_of_legal {p : Params} (legal : p.legal = true) : newMachine p = .ok (State.initial p) := if_pos legal

theorem newMachine_of_not_legal {p : Params} (illegal : ¬ p.legal = true) : newMachine p = .error .constructionRejected :=
  if_neg illegal

/-- The counter holds every PC_INIT below N, since N is at most 256. -/
theorem initial_pc_toNat {p : Params} (legal : p.legal = true) : (State.initial p).pc.toNat = p.pcInit := by
  obtain ⟨_, memLe, _, _, pcLt⟩ := Params.legal_iff.mp legal
  exact Nat.mod_eq_of_lt (by omega)

theorem initial_cell (p : Params) (space : Space) (a : Nat) : (bankOf (State.initial p) space).cell a = none := by
  cases space <;> exact Bank.cell_nil a

/-- Every cell in a bank of a new machine is shown unset, with its address as its id (R13, R26). -/
theorem inspect_initial {p : Params} {space : Space} {a : Nat} (lt : a < bankSize (State.initial p) space) :
    inspect space (State.initial p) a = .ok ⟨a, false, 0x00#8, ['_', '_']⟩ := by
  obtain ⟨_, ofUnset, _⟩ := renderingReadsBack (State.initial p) space a
  exact (ofUnset lt (initial_cell p space a)).2

theorem inspect_of_le {space : Space} {s : State} {a : Nat} (beyond : bankSize s space ≤ a) :
    inspect space s a = .error .addressError := if_neg (Nat.not_lt.mpr beyond)

/-- Settles O38: a legal machine is `State.initial`, whose banks hold no set cell; construction checks exactly the bounds of R111. -/
theorem constructionIsBoundedAndUnset : Obligations.ConstructionIsBoundedAndUnset := by
  intro p bounds
  have legalIff : p.legal = true ↔ bounds := Params.legal_iff
  refine ⟨fun inside => ?_, fun outside => newMachine_of_not_legal (mt legalIff.mp outside)⟩
  have legal := legalIff.mpr inside
  exact ⟨State.initial p, newMachine_of_legal legal, rfl, initial_pc_toNat legal, rfl,
    fun _ lt => inspect_initial (space := .memory) lt, fun _ lt => inspect_initial (space := .register) lt,
    fun _ beyond => inspect_of_le (space := .memory) beyond, fun _ beyond => inspect_of_le (space := .register) beyond⟩

end Sys2Proof.Machine
end
